-- ==== Sys2Proof/Word.lean ====
section
/-! DEFINITION. The one word type of the LS-8 CORE: registers, memory cells, addresses and operand
bytes are all 8 bits wide (spec/00_scope.md R6, R9). -/

namespace Sys2Proof

/-- An 8-bit value: a register, a memory cell, an address or an operand byte (R9). -/
abbrev Byte := BitVec 8

end Sys2Proof
end

