-- ==== Sys2Proof/Config.lean ====
section
/-! DEFINITION. The fixed parameters of this hardware (spec/00_scope.md R6). The open parameters of
R7 are not constants: irq_in is `State.irqIn`, the host's IM writes and its stop decision are in
`Machine/HostPort.lean`, and so is the timer, with TIMER_LINE and TIMER_PERIOD as arguments of `timedRun`. The spec leaves no
value free, so this file holds no opaque constant. -/

namespace Sys2Proof.Config

/-- Number of bytes of memory (R6, R39). -/
def memSize : Nat := 256

/-- The highest memory address, 0xFF (R6, R41). -/
def topAddr : Nat := 0xFF

/-- Number of general registers (R6, R18). -/
def numRegs : Nat := 8

/-- Number of interrupt lines (R6, R131). -/
def numLines : Nat := 8

/-- Reset value of the stack pointer (R6, R37). -/
def spReset : Byte := 0xF4#8

/-- Reset value of pc, the program load base (R6, R151). -/
def pcReset : Byte := 0x00#8

/-- The vector of line i is the byte at `vectorBase + i` (R6, R49). -/
def vectorBase : Byte := 0xF8#8

/-- The length in bytes of the longest instruction (R6, R58). -/
def maxInstrBytes : Nat := 3

end Sys2Proof.Config
end

