-- ==== Sys2Proof/Syntax.lean ====
section
/-! DEFINITION. The instructions, one constructor per row of spec/opcode_table.json, and the four
formats of spec/30_encoding.md R61. -/

namespace Sys2Proof

/-- An instruction with its operand bytes. A register operand is the WHOLE operand byte, since a byte
above 7 is still an instruction, whose rule raises RegisterError (R60, R71). `a` and `b` are the
operand bytes of register A and register B, `imm` is the immediate byte of LDI. -/
inductive Instr where
  -- format Z
  | nop | hlt | ret | iret
  -- format R
  | push (a : Byte) | pop (a : Byte) | prn (a : Byte) | pra (a : Byte)
  | call (a : Byte) | int (a : Byte)
  | jmp (a : Byte) | jeq (a : Byte) | jne (a : Byte) | jgt (a : Byte)
  | jlt (a : Byte) | jle (a : Byte) | jge (a : Byte)
  | inc (a : Byte) | dec (a : Byte) | not (a : Byte)
  -- format RI
  | ldi (a imm : Byte)
  -- format RR
  | ld (a b : Byte) | st (a b : Byte)
  | add (a b : Byte) | sub (a b : Byte) | mul (a b : Byte) | div (a b : Byte) | mod (a b : Byte)
  | cmp (a b : Byte)
  | and (a b : Byte) | or (a b : Byte) | xor (a b : Byte) | shl (a b : Byte) | shr (a b : Byte)
  deriving DecidableEq, Repr

/-- The instructions whose opcode has the ALU marker, bit 5 (R59; column C of R62). -/
def Instr.isAlu : Instr → Bool
  | .add _ _ | .sub _ _ | .mul _ _ | .div _ _ | .mod _ _ | .cmp _ _ => true
  | .and _ _ | .or _ _ | .xor _ _ | .shl _ _ | .shr _ _ => true
  | .inc _ | .dec _ | .not _ => true
  | .nop | .hlt | .ret | .iret => false
  | .push _ | .pop _ | .prn _ | .pra _ | .call _ | .int _ => false
  | .jmp _ | .jeq _ | .jne _ | .jgt _ | .jlt _ | .jle _ | .jge _ => false
  | .ldi _ _ | .ld _ _ | .st _ _ => false

/-- The instructions whose opcode has the sets-PC marker, bit 4 (R59, R73; column P of R62). -/
def Instr.setsPc : Instr → Bool
  | .call _ | .ret | .int _ | .iret => true
  | .jmp _ | .jeq _ | .jne _ | .jgt _ | .jlt _ | .jle _ | .jge _ => true
  | .nop | .hlt | .push _ | .pop _ | .prn _ | .pra _ => false
  | .inc _ | .dec _ | .not _ | .ldi _ _ | .ld _ _ | .st _ _ => false
  | .add _ _ | .sub _ _ | .mul _ _ | .div _ _ | .mod _ _ | .cmp _ _ => false
  | .and _ _ | .or _ _ | .xor _ _ | .shl _ _ | .shr _ _ => false

/-- What an opcode byte says about its instruction: the format of R61, and the instruction once the
operand bytes are known. -/
inductive OpShape where
  | z (i : Instr)
  | r (mk : Byte → Instr)
  | ri (mk : Byte → Byte → Instr)
  | rr (mk : Byte → Byte → Instr)

/-- Why a sequence of bytes is not an instruction. -/
inductive DecodeError where
  /-- There is no opcode byte at all. -/
  | noOpcode
  /-- The opcode byte is not one of the 34 of R62 (R63, R64). -/
  | unsupported (b0 : Byte)
  /-- The opcode is valid and its operand byte number `k` is missing (R71). -/
  | operandMissing (k : Nat)
  deriving DecidableEq, Repr

end Sys2Proof
end

