-- ==== Sys2Proof/WellFormed.lean ====
section
/-! DEFINITION. Well-formed instructions: every register operand byte names one of R0 to R7
(spec/30_encoding.md R60). An instruction that is not well formed is still executed: it raises RegisterError
(spec/60_exceptions.md R124). -/

namespace Sys2Proof

/-- The operand byte is a register index in [0, 7] (R60). -/
def isRegIndex (b : Byte) : Bool := decide (b.toNat < Config.numRegs)

/-- The register operand bytes of an instruction, A before B (R61). -/
def Instr.regOperands : Instr → List Byte
  | .nop | .hlt | .ret | .iret => []
  | .push a | .pop a | .prn a | .pra a | .call a | .int a => [a]
  | .jmp a | .jeq a | .jne a | .jgt a | .jlt a | .jle a | .jge a => [a]
  | .inc a | .dec a | .not a => [a]
  | .ldi a _ => [a]
  | .ld a b | .st a b => [a, b]
  | .add a b | .sub a b | .mul a b | .div a b | .mod a b | .cmp a b => [a, b]
  | .and a b | .or a b | .xor a b | .shl a b | .shr a b => [a, b]

/-- Every register operand is a register index (R60, R124). -/
def Instr.wellFormed (i : Instr) : Bool := i.regOperands.all isRegIndex

end Sys2Proof
end

