-- ==== Sys2Proof/Decode.lean ====
section
/-! DEFINITION. Decoding and encoding (spec/30_encoding.md R58 to R66). Decoding is by the whole
opcode byte: the 34 values of the opcode map select their instruction, and every other byte is rejected. -/

namespace Sys2Proof

/-- The opcode map of R62, the one table the decoder reads. -/
def opcodeTable : List (Byte × OpShape) :=
  [ (0x00#8, .z .nop),  (0x01#8, .z .hlt),  (0x11#8, .z .ret),  (0x13#8, .z .iret),
    (0x45#8, .r .push), (0x46#8, .r .pop),  (0x47#8, .r .prn),  (0x48#8, .r .pra),
    (0x50#8, .r .call), (0x52#8, .r .int),
    (0x54#8, .r .jmp),  (0x55#8, .r .jeq),  (0x56#8, .r .jne),  (0x57#8, .r .jgt),
    (0x58#8, .r .jlt),  (0x59#8, .r .jle),  (0x5A#8, .r .jge),
    (0x65#8, .r .inc),  (0x66#8, .r .dec),  (0x69#8, .r .not),
    (0x82#8, .ri .ldi), (0x83#8, .rr .ld),  (0x84#8, .rr .st),
    (0xA0#8, .rr .add), (0xA1#8, .rr .sub), (0xA2#8, .rr .mul),
    (0xA3#8, .rr .div), (0xA4#8, .rr .mod), (0xA7#8, .rr .cmp),
    (0xA8#8, .rr .and), (0xAA#8, .rr .or),  (0xAB#8, .rr .xor),
    (0xAC#8, .rr .shl), (0xAD#8, .rr .shr) ]

/-- The row of an opcode byte in a table of opcodes (R63: the whole byte selects). -/
def lookupOpcode : List (Byte × OpShape) → Byte → Option OpShape
  | [], _ => none
  | (k, sh) :: rows, b0 => if b0 = k then some sh else lookupOpcode rows b0

/-- Decode one instruction from the front of a byte sequence, and give the bytes after it. The opcode
is judged before any operand byte (R63, R64, R70), operand 1 before operand 2 (R71). -/
def decode : List Byte → Except DecodeError (Instr × List Byte)
  | [] => .error .noOpcode
  | b0 :: rest =>
    match lookupOpcode opcodeTable b0 with
    | none => .error (.unsupported b0)
    | some (.z i) => .ok (i, rest)
    | some (.r mk) =>
      match rest with
      | b1 :: rest' => .ok (mk b1, rest')
      | [] => .error (.operandMissing 1)
    | some (.ri mk) | some (.rr mk) =>
      match rest with
      | b1 :: b2 :: rest' => .ok (mk b1 b2, rest')
      | [_] => .error (.operandMissing 2)
      | [] => .error (.operandMissing 1)

/-- The bytes of an instruction: its opcode, then its operand bytes in order (R61, R62, R80). -/
def encode : Instr → List Byte
  | .nop => [0x00#8]
  | .hlt => [0x01#8]
  | .ret => [0x11#8]
  | .iret => [0x13#8]
  | .push a => [0x45#8, a]
  | .pop a => [0x46#8, a]
  | .prn a => [0x47#8, a]
  | .pra a => [0x48#8, a]
  | .call a => [0x50#8, a]
  | .int a => [0x52#8, a]
  | .jmp a => [0x54#8, a]
  | .jeq a => [0x55#8, a]
  | .jne a => [0x56#8, a]
  | .jgt a => [0x57#8, a]
  | .jlt a => [0x58#8, a]
  | .jle a => [0x59#8, a]
  | .jge a => [0x5A#8, a]
  | .inc a => [0x65#8, a]
  | .dec a => [0x66#8, a]
  | .not a => [0x69#8, a]
  | .ldi a imm => [0x82#8, a, imm]
  | .ld a b => [0x83#8, a, b]
  | .st a b => [0x84#8, a, b]
  | .add a b => [0xA0#8, a, b]
  | .sub a b => [0xA1#8, a, b]
  | .mul a b => [0xA2#8, a, b]
  | .div a b => [0xA3#8, a, b]
  | .mod a b => [0xA4#8, a, b]
  | .cmp a b => [0xA7#8, a, b]
  | .and a b => [0xA8#8, a, b]
  | .or a b => [0xAA#8, a, b]
  | .xor a b => [0xAB#8, a, b]
  | .shl a b => [0xAC#8, a, b]
  | .shr a b => [0xAD#8, a, b]

/-- The operand count field AA of an opcode byte, bits 7:6 (R59, R66). -/
def operandCountField (b0 : Byte) : Nat := b0.toNat / 64

/-- The ALU marker C of an opcode byte, bit 5 (R59). -/
def aluMarker (b0 : Byte) : Bool := b0.getLsbD 5

/-- The sets-PC marker P of an opcode byte, bit 4 (R59, R73). -/
def setsPcMarker (b0 : Byte) : Bool := b0.getLsbD 4

/-- The length of an instruction in bytes (R58, R66). -/
def Instr.length (i : Instr) : Nat := (encode i).length

/-- The three bytes, lowest address first, of an instruction word whose `nbits` bits are `w`, numbered
as spec/opcode_table.json numbers them (bit 0 is the lowest of the first byte); the bits from `nbits` up are 0. -/
def wordBytes (nbits w : Nat) : List Byte :=
  let v := w % 2 ^ nbits
  [BitVec.ofNat 8 v, BitVec.ofNat 8 (v / 256), BitVec.ofNat 8 (v / 65536)]

/-- The instruction the decoder reads from an instruction word of the opcode table. -/
def decodeTableWord (nbits w : Nat) : Option Instr :=
  match decode (wordBytes nbits w) with
  | .ok (i, _) => some i
  | .error _ => none

end Sys2Proof
end

