-- ==== Sys2Proof/Machine/State.lean ====
section
/-! DEFINITION. The state of the machine, all of spec/10_state.md R17 and one field of the model's own
(`irqIn`), its reset value (R37), and the reasons a step can stop. -/

namespace Sys2Proof.Machine

/-- FL: three independent bits, Equal, Greater-Than and Less-Than (R23). -/
structure Flags where
  e : Bool
  g : Bool
  l : Bool
  deriving DecidableEq, Repr

/-- IC, the state of the interrupt controller (R29). -/
inductive Controller where
  | normal
  | handling
  deriving DecidableEq, Repr

/-- RS, the state of the fetch-decode-execute loop (R30). -/
inductive RunState where
  | running
  | halted
  deriving DecidableEq, Repr

/-- The kinds of fatal error (R122). -/
inductive FatalKind where
  | addressError
  | registerError
  | divideByZeroError
  | unsupportedOperationError
  /-- Reserved by R127: this hardware never raises it. -/
  | stackImbalanceError
  deriving DecidableEq, Repr

/-- HR, the halt record (R31). -/
inductive HaltRecord where
  | none
  | normal
  | fatal (kind : FatalKind) (fpc : Byte)
  deriving DecidableEq, Repr

/-- A console output event (R14, R34): `dec` is written by PRN, `chr` by PRA. -/
inductive OutEvent where
  | dec (v : Byte)
  | chr (v : Byte)
  deriving DecidableEq, Repr

/-- DEDUCED (log entry 2): no step ends in a fault, so there is no constructor. The spec gives the whole
state that a fatal error leaves (R129), and the model takes it as a next state. -/
inductive Fault where
  deriving DecidableEq, Repr

/-- The reasons a step may be refused. -/
inductive Refusal where
  /-- Raised by an arm of `exec` whose instruction has no meaning yet: safe. No arm of this model does. -/
  | notModelled (mnemonic : String)
  deriving DecidableEq, Repr

/-- Memory M[0..255] (R32, R39): the cells that do not hold 0, addresses strictly rising. An address
that is not listed reads as 0 (R40). -/
abbrev Memory := List Host.Cell

/-- The architectural state (R17). -/
structure State where
  /-- The general registers R0 to R7; R7 is SP (R18, R19). -/
  x : Vector Byte 8
  /-- The program counter (R21). -/
  pc : Byte
  /-- The flags (R23). -/
  fl : Flags
  /-- IM, the interrupt mask (R27). -/
  im : Byte
  /-- IS, the interrupt status (R28). -/
  is : Byte
  /-- IC, the interrupt controller (R29). -/
  ic : Controller
  /-- RS, the run state (R30). -/
  rs : RunState
  /-- HR, the halt record (R31). -/
  hr : HaltRecord
  /-- M, memory (R32). -/
  mem : Memory
  /-- OUT, the console output sequence, oldest event first (R34). -/
  out : List OutEvent
  /-- DESIGN CHOICE (log entry 1): the MODEL's own field. The draws of the input port irq_in (R7, R35) that
  the environment makes at the coming Running steps, head first; once empty, every draw is 0. -/
  irqIn : List Byte
  deriving DecidableEq, Repr

/-- The state at launch with no program image and IM not written by the host (R37, R150). -/
def State.reset : State where
  x := #v[0#8, 0#8, 0#8, 0#8, 0#8, 0#8, 0#8, Config.spReset]
  pc := Config.pcReset
  fl := ⟨false, false, false⟩
  im := 0x00#8
  is := 0x00#8
  ic := .normal
  rs := .running
  hr := .none
  mem := []
  out := []
  irqIn := []

end Sys2Proof.Machine
end

