-- ==== Sys2Proof/Machine/Flags.lean ====
section
/-! DEFINITION. Every flag computation of the spec: the byte image of FL (spec/10_state.md R24), the
comparison (spec/45_alu.md R113) and the six jump conditions (spec/43_control_transfer.md R94). -/

namespace Sys2Proof.Machine

/-- FLbyte: bit 0 is E, bit 1 is G, bit 2 is L, bits 7:3 are 0 (R24). -/
def flByte (f : Flags) : Byte :=
  BitVec.ofNat 8 (f.l.toNat <<< 2 ||| f.g.toNat <<< 1 ||| f.e.toNat)

/-- FLfromByte: E, G and L from bits 0, 1 and 2; bits 7:3 are ignored (R24). -/
def flOfByte (b : Byte) : Flags where
  e := b.getLsbD 0
  g := b.getLsbD 1
  l := b.getLsbD 2

/-- The flags CMP writes for the unsigned operands `a` and `b` (R113). -/
def cmpFlags (a b : Byte) : Flags where
  e := decide (a.toNat = b.toNat)
  g := decide (a.toNat > b.toNat)
  l := decide (a.toNat < b.toNat)

/-- The condition of JEQ (R95). -/
def condEq (f : Flags) : Bool := f.e
/-- The condition of JNE (R96). -/
def condNe (f : Flags) : Bool := !f.e
/-- The condition of JGT (R97). -/
def condGt (f : Flags) : Bool := f.g
/-- The condition of JLT (R98). -/
def condLt (f : Flags) : Bool := f.l
/-- The condition of JLE (R99). -/
def condLe (f : Flags) : Bool := f.l || f.e
/-- The condition of JGE (R100). -/
def condGe (f : Flags) : Bool := f.g || f.e

end Sys2Proof.Machine
end

