-- ==== Sys2Proof/Machine/Ops.lean ====
section
/-! DEFINITION. The named operations over registers and memory, the transaction of a step with its fatal
halt (spec/00_scope.md R12, spec/60_exceptions.md R129), and taking an interrupt with the return from it
(spec/60_exceptions.md R134 to R139, spec/44_interrupt_instr.md R104). -/

namespace Sys2Proof.Machine

/-! ### Memory (spec/20_memory.md R39 to R46) -/

/-- The canonical form of memory: addresses strictly rising and inside the address space, and no cell
that holds 0, which is what an unlisted address reads as (R39, R40). -/
abbrev Memory.wf (m : Memory) : Prop :=
  m.Pairwise (fun c d => c.1 < d.1) ∧ ∀ c ∈ m, c.1 < Config.memSize ∧ c.2 ≠ 0#8

/-- `M[a]`: the byte listed at `a`, and 0 where none is listed (R40). -/
def Memory.read : Memory → Nat → Byte
  | [], _ => 0#8
  | (k, v) :: m, a => if a = k then v else Memory.read m a

/-- Memory without a cell for address `a`. -/
def Memory.erase (m : Memory) (a : Nat) : Memory := m.filter (fun c => decide (c.1 ≠ a))

/-- Memory with the cell `(a, v)` put at its place in the rising order. -/
def Memory.insert : Memory → Nat → Byte → Memory
  | [], a, v => [(a, v)]
  | (k, w) :: m, a, v => if a < k then (a, v) :: (k, w) :: m else (k, w) :: Memory.insert m a v

/-- `M[a] <- v`, keeping the canonical form (R40). -/
def Memory.write (m : Memory) (a : Nat) (v : Byte) : Memory :=
  if v = 0#8 then m.erase a else (m.erase a).insert a v

/-- Bytes placed at rising addresses from `a`; a byte past 0xFF has no place and is dropped (R39). -/
def Memory.writeBytes : Memory → Nat → List Byte → Memory
  | m, _, [] => m
  | m, a, v :: vs =>
    if a ≤ Config.topAddr then Memory.writeBytes (m.write a v) (a + 1) vs else m

/-! ### State updates, one field at a time -/

/-- Write `x[r]` (R10, R20). -/
def State.setReg (s : State) (r : Fin 8) (v : Byte) : State := { s with x := s.x.set r v }
/-- Write pc with a value that is a byte already (R13). -/
def State.setPc (s : State) (v : Byte) : State := { s with pc := v }
/-- Write FL (R25). -/
def State.setFl (s : State) (f : Flags) : State := { s with fl := f }
/-- Write IS (R28). -/
def State.setIs (s : State) (v : Byte) : State := { s with is := v }
/-- Write IM; only the host does (R27, R157). -/
def State.setIm (s : State) (v : Byte) : State := { s with im := v }
/-- Write IC (R29). -/
def State.setIc (s : State) (c : Controller) : State := { s with ic := c }
/-- RS <- Halted with the halt record `h` (R30, R31). -/
def State.halt (s : State) (h : HaltRecord) : State := { s with rs := .halted, hr := h }
/-- `MemWrite(a, 1, v)` at an 8-bit address, which is always in range (R11, R41). -/
def State.store (s : State) (a v : Byte) : State := { s with mem := s.mem.write a.toNat v }
/-- `Emit(e)` (R14). -/
def State.emit (s : State) (e : OutEvent) : State := { s with out := s.out ++ [e] }
/-- Replace the environment's coming draws of irq_in (log entry 1). -/
def State.setIrqIn (s : State) (ds : List Byte) : State := { s with irqIn := ds }

/-! ### State reads -/

/-- Read `x[r]` (R10, R20). -/
def State.getReg (s : State) (r : Fin 8) : Byte := s.x[r]
/-- SP is `x[7]` (R19). -/
def State.sp (s : State) : Byte := s.getReg 7
/-- `MemRead(a, 1)` at an 8-bit address, which is always in range (R11, R41). -/
def State.load (s : State) (a : Byte) : Byte := s.mem.read a.toNat

/-! ### Stack primitives (spec/20_memory.md R47, R48) -/

/-- `Push(v)`: decrement SP modulo 256, then write `v` at the new SP (R47). -/
def State.push (s : State) (v : Byte) : State :=
  (s.setReg 7 (s.sp - 1#8)).store (s.sp - 1#8) v

/-- The byte that `Pop()` returns (R48). -/
def State.popValue (s : State) : Byte := s.load s.sp

/-- The state that `Pop()` leaves: SP incremented modulo 256, the byte still in memory (R48). -/
def State.popRest (s : State) : State := s.setReg 7 (s.sp + 1#8)

/-! ### The transaction of a step and the fatal halt (R12, R13, R129) -/

/-- What an instruction's statements give: the state they leave, or the fatal error they raise (R12). -/
abbrev Tx := Except FatalKind State

/-- `u8(v)`: reduction modulo 256 of an unbounded integer (R9). -/
def u8 (v : Int) : Byte := BitVec.ofInt 8 v

/-- `pc <- v` with its check: above 0xFF it is AddressError (R13). -/
def assignPc (v : Nat) (s : State) : Tx :=
  if v > Config.topAddr then .error .addressError else .ok (s.setPc (BitVec.ofNat 8 v))

/-- The fatal halt: from the state with every write of the instruction discarded, RS <- Halted and
HR <- Fatal(k, pc); pc keeps its value (R129, R75). -/
def fatalHalt (k : FatalKind) (s : State) : State := s.halt (.fatal k s.pc)

/-- Commit a transaction that began in `s`: its state, or the fatal halt of `s` (R12, R129). -/
def commit (s : State) : Tx → Host.Outcome State Fault Refusal
  | .ok t => .next t
  | .error k => .next (fatalHalt k s)

/-! ### The fetch-cycle boundary: sampling and acceptance (R68, R134, R135) -/

/-- The draw of irq_in at this boundary (R68; log entry 1). -/
def irqDraw (s : State) : Byte := s.irqIn.headD 0#8

/-- `IS <- IS | irq_in`, using up one draw (R68). -/
def sampleIrq (s : State) : State := (s.setIs (s.is ||| irqDraw s)).setIrqIn s.irqIn.tail

/-- The interrupt lines, lowest first (R131). -/
def lines : List (Fin 8) := [0, 1, 2, 3, 4, 5, 6, 7]

/-- The line accepted at the boundary: with IC Normal, the lowest line that is pending and enabled
(R134, R135); with IC Handling, none (R138). -/
def acceptedLine (s : State) : Option (Fin 8) :=
  match s.ic with
  | .normal => lines.find? (fun i => (s.is &&& s.im).getLsbD i)
  | .handling => none

/-! ### Taking an interrupt and returning from it (R104, R136, R137) -/

/-- The registers an interrupt saves, in the order they are pushed (R136). -/
def savedRegs : List (Fin 8) := [0, 1, 2, 3, 4, 5, 6]

/-- Push `x[r]`. -/
def pushReg (s : State) (r : Fin 8) : State := s.push (s.getReg r)

/-- Pop into `x[r]`. -/
def popReg (s : State) (r : Fin 8) : State := s.popRest.setReg r s.popValue

/-- The nine pushes of an interrupt entry: pc, the FL byte, R0 to R6 (R136, R137). -/
def pushFrame (s : State) : State :=
  savedRegs.foldl pushReg ((s.push s.pc).push (flByte s.fl))

/-- The mask of one line, `1 << i` (R103, R136). -/
def lineMask (i : Nat) : Byte := BitVec.ofNat 8 (1 <<< i)

/-- The address of the vector of line `i`, 0xF8 + i (R49). -/
def vectorAddr (i : Fin 8) : Byte := Config.vectorBase + BitVec.ofNat 8 i.val

/-- Interrupt entry for line `i`: push the frame, clear the line's IS bit, IC <- Handling, and
take pc from the vector, read after the pushes (R136). -/
def interruptEntry (i : Fin 8) (s : State) : State :=
  let t := pushFrame s
  ((t.setIs (t.is &&& ~~~ lineMask i)).setIc .handling).setPc (t.load (vectorAddr i))

/-- Return from an interrupt: pop R6 to R0, then FL, then pc, and IC <- Normal (R104). -/
def interruptReturn (s : State) : State :=
  let t := savedRegs.reverse.foldl popReg s
  let u := t.popRest.setFl (flOfByte t.popValue)
  (u.popRest.setPc u.popValue).setIc .normal

end Sys2Proof.Machine
end

