-- ==== Sys2Proof/Machine/Operands.lean ====
section
/-! DEFINITION. The operand forms of spec/30_encoding.md: register operands with their check (R60), and
`seq`, the address after the instruction (R71, R72). -/

namespace Sys2Proof.Machine

/-- `RegIdx(b)`: the whole byte is the index; above 7 it is RegisterError (R60). -/
def regIdx (b : Byte) : Except FatalKind (Fin 8) :=
  if h : b.toNat < 8 then .ok ⟨b.toNat, h⟩ else .error .registerError

/-- Run `k` on the register that operand byte `a` names (R60). -/
def onReg (a : Byte) (k : Fin 8 → Tx) : Tx :=
  match regIdx a with
  | .ok ra => k ra
  | .error e => .error e

/-- Run `k` on the registers that operand bytes `a` and `b` name; A is checked before B (R60, R130). -/
def onRegs (a b : Byte) (k : Fin 8 → Fin 8 → Tx) : Tx :=
  onReg a (fun ra => onReg b (fun rb => k ra rb))

/-- `seq = pc + 1 + n` for `n` operand bytes, an integer that is not reduced (R71). -/
def seqAddr (n : Nat) (s : State) : Nat := s.pc.toNat + 1 + n

/-- `pc <- seq`, where `t` is what the instruction's earlier statements left of `s` (R72, R73). -/
def advance (n : Nat) (s t : State) : Tx := assignPc (seqAddr n s) t

end Sys2Proof.Machine
end

