-- ==== Sys2Proof/Machine/Alu.lean ====
section
/-! DEFINITION. The ALU: the result of each operation, computed on unbounded integers and narrowed at the
end (spec/00_scope.md R9), and the fourteen ALU instructions (spec/45_alu.md). -/

namespace Sys2Proof.Machine

/-- ADD: `u8(a + b)` (R106). -/
def aluAdd (a b : Byte) : Byte := u8 (a.toNat + b.toNat)
/-- SUB: `u8(a - b)` (R107). -/
def aluSub (a b : Byte) : Byte := u8 ((a.toNat : Int) - (b.toNat : Int))
/-- MUL: `u8(a * b)`, the low byte of the product (R108). -/
def aluMul (a b : Byte) : Byte := u8 (a.toNat * b.toNat)
/-- DIV: unsigned floor division; only for a divisor that is not 0 (R109). -/
def aluDiv (a b : Byte) : Byte := BitVec.ofNat 8 (a.toNat / b.toNat)
/-- MOD: unsigned remainder; only for a divisor that is not 0 (R110). -/
def aluMod (a b : Byte) : Byte := BitVec.ofNat 8 (a.toNat % b.toNat)
/-- INC: `u8(a + 1)` (R111). -/
def aluInc (a : Byte) : Byte := u8 (a.toNat + 1)
/-- DEC: `u8(a - 1)` (R112). -/
def aluDec (a : Byte) : Byte := u8 ((a.toNat : Int) - 1)
/-- AND (R114). -/
def aluAnd (a b : Byte) : Byte := a &&& b
/-- OR (R115). -/
def aluOr (a b : Byte) : Byte := a ||| b
/-- XOR (R116). -/
def aluXor (a b : Byte) : Byte := a ^^^ b
/-- NOT: `255 - a` (R9, R117). -/
def aluNot (a : Byte) : Byte := ~~~ a
/-- SHL: `u8(a << b)`, the amount being the whole byte `b` (R118). -/
def aluShl (a b : Byte) : Byte := BitVec.ofNat 8 (a.toNat <<< b.toNat)
/-- SHR: `a >> b`, logical, the amount being the whole byte `b` (R119). -/
def aluShr (a b : Byte) : Byte := BitVec.ofNat 8 (a.toNat >>> b.toNat)

/-- The binary form (format RR): operands are read before anything is written, the result goes to
register A, FL is left alone (R105). -/
def aluBinary (op : Byte → Byte → Byte) (a b : Byte) (s : State) : Tx :=
  onRegs a b fun ra rb => advance 2 s (s.setReg ra (op (s.getReg ra) (s.getReg rb)))

/-- The binary form of DIV and MOD: a divisor of 0 is DivideByZeroError (R109, R110). -/
def aluDivide (op : Byte → Byte → Byte) (a b : Byte) (s : State) : Tx :=
  onRegs a b fun ra rb =>
    if s.getReg rb = 0#8 then .error .divideByZeroError
    else advance 2 s (s.setReg ra (op (s.getReg ra) (s.getReg rb)))

/-- The unary form (format R): the result goes to register A, FL is left alone (R105). -/
def aluUnary (op : Byte → Byte) (a : Byte) (s : State) : Tx :=
  onReg a fun ra => advance 1 s (s.setReg ra (op (s.getReg ra)))

/-- ADD (R106). -/
def execAdd (a b : Byte) (s : State) : Host.Outcome State Fault Refusal := commit s (aluBinary aluAdd a b s)
/-- SUB (R107). -/
def execSub (a b : Byte) (s : State) : Host.Outcome State Fault Refusal := commit s (aluBinary aluSub a b s)
/-- MUL (R108). -/
def execMul (a b : Byte) (s : State) : Host.Outcome State Fault Refusal := commit s (aluBinary aluMul a b s)
/-- DIV (R109). -/
def execDiv (a b : Byte) (s : State) : Host.Outcome State Fault Refusal := commit s (aluDivide aluDiv a b s)
/-- MOD (R110). -/
def execMod (a b : Byte) (s : State) : Host.Outcome State Fault Refusal := commit s (aluDivide aluMod a b s)
/-- INC (R111). -/
def execInc (a : Byte) (s : State) : Host.Outcome State Fault Refusal := commit s (aluUnary aluInc a s)
/-- DEC (R112). -/
def execDec (a : Byte) (s : State) : Host.Outcome State Fault Refusal := commit s (aluUnary aluDec a s)
/-- CMP writes E, G and L and no register (R113). -/
def execCmp (a b : Byte) (s : State) : Host.Outcome State Fault Refusal :=
  commit s (onRegs a b fun ra rb => advance 2 s (s.setFl (cmpFlags (s.getReg ra) (s.getReg rb))))
/-- AND (R114). -/
def execAnd (a b : Byte) (s : State) : Host.Outcome State Fault Refusal := commit s (aluBinary aluAnd a b s)
/-- OR (R115). -/
def execOr (a b : Byte) (s : State) : Host.Outcome State Fault Refusal := commit s (aluBinary aluOr a b s)
/-- XOR (R116). -/
def execXor (a b : Byte) (s : State) : Host.Outcome State Fault Refusal := commit s (aluBinary aluXor a b s)
/-- NOT (R117). -/
def execNot (a : Byte) (s : State) : Host.Outcome State Fault Refusal := commit s (aluUnary aluNot a s)
/-- SHL (R118). -/
def execShl (a b : Byte) (s : State) : Host.Outcome State Fault Refusal := commit s (aluBinary aluShl a b s)
/-- SHR (R119). -/
def execShr (a b : Byte) (s : State) : Host.Outcome State Fault Refusal := commit s (aluBinary aluShr a b s)

end Sys2Proof.Machine
end

