-- ==== Sys2Proof/Machine/Control.lean ====
section
/-! DEFINITION. Machine control: HLT and NOP (spec/40_machine_control.md). -/

namespace Sys2Proof.Machine

/-- NOP: `pc <- seq` (R82). -/
def execNop (s : State) : Host.Outcome State Fault Refusal :=
  commit s (advance 0 s s)

/-- HLT: `RS <- Halted; HR <- Normal`; pc is not written (R81). -/
def execHlt (s : State) : Host.Outcome State Fault Refusal :=
  commit s (.ok (s.halt .normal))

end Sys2Proof.Machine
end

