-- ==== Sys2Proof/Machine/InterruptInstr.lean ====
section
/-! DEFINITION. Interrupt instructions: INT and IRET (spec/44_interrupt_instr.md). -/

namespace Sys2Proof.Machine

/-- INT: a line number above 7 is UnsupportedOperationError; else `IS <- IS | (1 << v); pc <- seq` (R103). -/
def execInt (a : Byte) (s : State) : Host.Outcome State Fault Refusal :=
  commit s (onReg a fun ra =>
    if (s.getReg ra).toNat > 7 then .error .unsupportedOperationError
    else advance 1 s (s.setIs (s.is ||| lineMask (s.getReg ra).toNat)))

/-- IRET: the return from an interrupt, whatever IC holds (R104). -/
def execIret (s : State) : Host.Outcome State Fault Refusal :=
  commit s (.ok (interruptReturn s))

end Sys2Proof.Machine
end

