-- ==== Sys2Proof/Machine/LoadStore.lean ====
section
/-! DEFINITION. Load, store and console output: LDI, LD, ST, PRN, PRA (spec/41_load_store_io.md). -/

namespace Sys2Proof.Machine

/-- LDI: `x[ra] <- b2` (R83). -/
def execLdi (a imm : Byte) (s : State) : Host.Outcome State Fault Refusal :=
  commit s (onReg a fun ra => advance 2 s (s.setReg ra imm))

/-- LD: `x[ra] <- MemRead(x[rb], 1)` (R84). -/
def execLd (a b : Byte) (s : State) : Host.Outcome State Fault Refusal :=
  commit s (onRegs a b fun ra rb => advance 2 s (s.setReg ra (s.load (s.getReg rb))))

/-- ST: `MemWrite(x[ra], 1, x[rb])` (R85). -/
def execSt (a b : Byte) (s : State) : Host.Outcome State Fault Refusal :=
  commit s (onRegs a b fun ra rb => advance 2 s (s.store (s.getReg ra) (s.getReg rb)))

/-- PRN: `Emit(Dec(x[ra]))` (R86). -/
def execPrn (a : Byte) (s : State) : Host.Outcome State Fault Refusal :=
  commit s (onReg a fun ra => advance 1 s (s.emit (.dec (s.getReg ra))))

/-- PRA: `Emit(Chr(x[ra]))` (R87). -/
def execPra (a : Byte) (s : State) : Host.Outcome State Fault Refusal :=
  commit s (onReg a fun ra => advance 1 s (s.emit (.chr (s.getReg ra))))

end Sys2Proof.Machine
end

