-- ==== Sys2Proof/Machine/Stack.lean ====
section
/-! DEFINITION. Stack instructions: PUSH and POP (spec/42_stack.md). -/

namespace Sys2Proof.Machine

/-- PUSH: the operand is read before the push, so PUSH R7 pushes the old SP (R89). -/
def execPush (a : Byte) (s : State) : Host.Outcome State Fault Refusal :=
  commit s (onReg a fun ra => advance 1 s (s.push (s.getReg ra)))

/-- POP: the register write comes after the increment, so POP R7 leaves the popped byte in SP (R90). -/
def execPop (a : Byte) (s : State) : Host.Outcome State Fault Refusal :=
  commit s (onReg a fun ra => advance 1 s (popReg s ra))

end Sys2Proof.Machine
end

