-- ==== Sys2Proof/Machine/Transfer.lean ====
section
/-! DEFINITION. Control transfer: CALL, RET, JMP and the six conditional jumps
(spec/43_control_transfer.md). -/

namespace Sys2Proof.Machine

/-- CALL: the target is read first, the return address `seq` must fit in a byte, then it is pushed and
`pc <- t` (R91). -/
def execCall (a : Byte) (s : State) : Host.Outcome State Fault Refusal :=
  commit s (onReg a fun ra =>
    if seqAddr 1 s > Config.topAddr then .error .addressError
    else .ok ((s.push (BitVec.ofNat 8 (seqAddr 1 s))).setPc (s.getReg ra)))

/-- RET: `pc <- Pop()` (R92). -/
def execRet (s : State) : Host.Outcome State Fault Refusal :=
  commit s (.ok (s.popRest.setPc s.popValue))

/-- JMP: `pc <- x[ra]` (R93). -/
def execJmp (a : Byte) (s : State) : Host.Outcome State Fault Refusal :=
  commit s (onReg a fun ra => .ok (s.setPc (s.getReg ra)))

/-- The common part of the conditional jumps: the register is checked whether or not the jump is taken;
taken, `pc <- x[ra]`, else `pc <- seq` (R94). -/
def condJump (cond : Bool) (a : Byte) (s : State) : Host.Outcome State Fault Refusal :=
  commit s (onReg a fun ra => if cond then .ok (s.setPc (s.getReg ra)) else advance 1 s s)

/-- JEQ (R95). -/
def execJeq (a : Byte) (s : State) : Host.Outcome State Fault Refusal := condJump (condEq s.fl) a s
/-- JNE (R96). -/
def execJne (a : Byte) (s : State) : Host.Outcome State Fault Refusal := condJump (condNe s.fl) a s
/-- JGT (R97). -/
def execJgt (a : Byte) (s : State) : Host.Outcome State Fault Refusal := condJump (condGt s.fl) a s
/-- JLT (R98). -/
def execJlt (a : Byte) (s : State) : Host.Outcome State Fault Refusal := condJump (condLt s.fl) a s
/-- JLE (R99). -/
def execJle (a : Byte) (s : State) : Host.Outcome State Fault Refusal := condJump (condLe s.fl) a s
/-- JGE (R100). -/
def execJge (a : Byte) (s : State) : Host.Outcome State Fault Refusal := condJump (condGe s.fl) a s

end Sys2Proof.Machine
end

