-- ==== Sys2Proof/Machine/Fetch.lean ====
section
/-! DEFINITION. Fetch and decode at pc (spec/30_encoding.md R70, R71). -/

namespace Sys2Proof.Machine

/-- Up to `n` bytes of memory from address `a` upward; addresses above 0xFF give none (R41, R71). -/
def bytesFrom (m : Memory) (a : Nat) : Nat → List Byte
  | 0 => []
  | n + 1 => if a ≤ Config.topAddr then m.read a :: bytesFrom m (a + 1) n else []

/-- The bytes a step can fetch at pc: the opcode and at most two operand bytes (R58, R71). -/
def fetchBytes (s : State) : List Byte := bytesFrom s.mem s.pc.toNat Config.maxInstrBytes

/-- The fatal error of a failed fetch: an unlisted opcode is UnsupportedOperationError (R63, R70); an
operand byte past 0xFF is AddressError (R71). pc is an address, so an opcode byte is always there. -/
def fetchErrorKind : DecodeError → FatalKind
  | .noOpcode => .addressError
  | .unsupported _ => .unsupportedOperationError
  | .operandMissing _ => .addressError

/-- The instruction at pc, or the fatal error of fetching it (R70, R71). -/
def fetchInstr (s : State) : Except FatalKind Instr :=
  match decode (fetchBytes s) with
  | .ok (i, _) => .ok i
  | .error e => .error (fetchErrorKind e)

end Sys2Proof.Machine
end

