-- ==== Sys2Proof/Machine/Step.lean ====
section
/-! DEFINITION. One step of the machine (spec/30_encoding.md R67 to R71, R76). -/

namespace Sys2Proof.Machine

/-- The instruction part of a step, after sampling and with no interrupt accepted (R67 (c), R70). -/
def stepInstr (s : State) : Host.Outcome State Fault Refusal :=
  match fetchInstr s with
  | .ok i => exec i s
  | .error k => .next (fatalHalt k s)

/-- The boundary of a Running machine, after sampling: an interrupt entry or one instruction (R67, R69). -/
def stepBoundary (s : State) : Host.Outcome State Fault Refusal :=
  match acceptedLine s with
  | some i => .next (interruptEntry i s)
  | none => stepInstr s

/-- One step: a Halted machine does not change and does not sample (R76); a Running one samples irq_in
(R68) and then enters an interrupt or executes the instruction at pc (R67). -/
def step (s : State) : Host.Outcome State Fault Refusal :=
  match s.rs with
  | .halted => .next s
  | .running => stepBoundary (sampleIrq s)

/-- `s` with the bytes of an instruction word stored at pc, where `step` fetches. Bytes above 0xFF have
no place. A Running machine with no interrupt to accept, such as the reset state, runs it next. -/
def State.withFetchWord (s : State) (nbits w : Nat) : State :=
  { s with mem := s.mem.writeBytes s.pc.toNat (wordBytes nbits w) }

end Sys2Proof.Machine
end

