-- ==== Sys2Proof/Machine/Image.lean ====
section
/-! DEFINITION. The text form of a program image (spec/70_reset_and_hazards.md R152, R153), read before a
launch. The loader is outside the core; nothing in `step` uses this file. -/

namespace Sys2Proof.Machine

/-- White space inside a line. -/
def isBlankChar (c : Char) : Bool := c == ' ' || c == '\t' || c == '\r'

/-- What stands before a `#` comment. -/
def beforeComment : List Char → List Char
  | [] => []
  | c :: cs => if c = '#' then [] else c :: beforeComment cs

/-- The value of a digit of a binary literal. -/
def binaryDigit (c : Char) : Option Nat :=
  if c = '0' then some 0 else if c = '1' then some 1 else none

/-- The value of binary digits, most significant first, continuing from `acc`. -/
def binaryValue : List Char → Nat → Option Nat
  | [], acc => some acc
  | c :: cs, acc =>
    match binaryDigit c with
    | some d => binaryValue cs (2 * acc + d)
    | none => none

/-- What a line of an image says. -/
inductive ImageLine where
  | comment
  | byte (v : Byte)
  | malformed
  deriving DecidableEq, Repr

/-- One line: blank before the comment, or an 8-digit binary literal at its start with white space and
a comment allowed after it, or malformed (R152, R153). DESIGN CHOICE (log entry 6): a line with white space alone,
or with white space alone before its `#`, counts as blank or comment-only, and a literal has nothing before it. -/
def readImageLine (line : List Char) : ImageLine :=
  let text := beforeComment line
  if text.all isBlankChar then .comment
  else if (text.drop 8).all isBlankChar && (text.take 8).length == 8 then
    match binaryValue (text.take 8) 0 with
    | some v => .byte (BitVec.ofNat 8 v)
    | none => .malformed
  else .malformed

/-- The bytes of an image, in the order of its lines; `none` where a line is malformed (R152, R153). -/
def readImage : List (List Char) → Option (List Byte)
  | [] => some []
  | line :: rest =>
    match readImageLine line, readImage rest with
    | .comment, r => r
    | .byte v, some bs => some (v :: bs)
    | _, _ => none

end Sys2Proof.Machine
end

