-- ==== Sys2Proof/Machine/HostPort.lean ====
section
/-! DEFINITION. The host's side of the interface (spec/10_state.md R35, spec/70_reset_and_hazards.md R149 to
R158): the launch, the host's write of IM, a run driven by the host, the external timer (spec/60_exceptions.md
R142), the status output, and the rendering of console events (spec/41_load_store_io.md R88). -/

namespace Sys2Proof.Machine

/-- Launch a machine with a program image at address 0 and IM as the host sets it; an image of more than
256 bytes is the loader's error and the core never starts (R149, R152, R153). -/
def launch (image : List Byte) (im : Byte) : Option State :=
  if image.length ≤ Config.memSize then
    some { State.reset with mem := Memory.writeBytes [] 0 image, im := im }
  else none

/-- Launch from the text form of an image (R152, R153). -/
def launchText (text : List (List Char)) (im : Byte) : Option State :=
  match readImage text with
  | some image => launch image im
  | none => none

/-- The host writes IM while the core is stopped between steps (R157, R27). DESIGN CHOICE (log entry 12): RS is
not asked, so the write reaches a Halted machine too. -/
def hostWriteIm (v : Byte) (s : State) : State := s.setIm v

/-- One step with the draw `irq` on the port irq_in; a Halted machine does not sample it (R67, R76, R156). -/
def stepWith (irq : Byte) (s : State) : Host.Outcome State Fault Refusal :=
  match s.rs with
  | .halted => step s
  | .running => step (s.setIrqIn (irq :: s.irqIn))

/-- What the host can do with a launched core: a step with a draw of irq_in, or a write of IM. Stopping is
making no further move (R156, R157). A write of IM is a move on a Halted machine too (log entry 12). -/
inductive HostMove where
  | step (irq : Byte)
  | writeIm (v : Byte)
  deriving DecidableEq, Repr

/-- The host's moves in order, up to the first step that does not answer a next state (R156). After Halted a
step changes nothing (R76), and a write of IM still changes IM: DESIGN CHOICE (log entry 12). -/
def hostRun : List HostMove → State → Host.Outcome State Fault Refusal
  | [], s => .next s
  | .writeIm v :: ms, s => hostRun ms (hostWriteIm v s)
  | .step irq :: ms, s =>
    match stepWith irq s with
    | .next t => hostRun ms t
    | .fault f => .fault f
    | .refused r => .refused r

/-- The request of the external timer at the boundary of step number `n`: line TIMER_LINE, once every
TIMER_PERIOD steps, and 0 between (R7, R142). DESIGN CHOICE (log entry 7): the period is counted in steps,
`phase` says at which of them the requests fall, and a period of 0 is a timer that makes none. -/
def timerRequest (timerLine : Fin 8) (timerPeriod phase n : Nat) : Byte :=
  if 0 < timerPeriod ∧ n % timerPeriod = phase % timerPeriod then lineMask timerLine.val else 0#8

/-- The host's moves with the timer's requests part of every draw of irq_in, from step number `n` on (R142). -/
def addTimer (timerLine : Fin 8) (timerPeriod phase : Nat) : Nat → List HostMove → List HostMove
  | _, [] => []
  | n, .writeIm v :: ms => .writeIm v :: addTimer timerLine timerPeriod phase n ms
  | n, .step irq :: ms =>
    .step (irq ||| timerRequest timerLine timerPeriod phase n) :: addTimer timerLine timerPeriod phase (n + 1) ms

/-- A run driven by the host beside a timer on TIMER_LINE with TIMER_PERIOD (R7, R142); the draws in `ms` are
those of the other sources. -/
def timedRun (timerLine : Fin 8) (timerPeriod phase : Nat) (ms : List HostMove) (s : State) :
    Host.Outcome State Fault Refusal :=
  hostRun (addTimer timerLine timerPeriod phase 0 ms) s

/-- The status code of a fatal kind (R122). -/
def kindCode : FatalKind → Nat
  | .addressError => 1
  | .registerError => 2
  | .divideByZeroError => 3
  | .unsupportedOperationError => 4
  | .stackImbalanceError => 5

/-- The status code the host sees; none while the machine runs (R31, R122). -/
def statusCode : HaltRecord → Option Nat
  | .none => none
  | .normal => some 0
  | .fatal k _ => some (kindCode k)

/-- A run has ended when RS is Halted (R158). -/
def runEnded (s : State) : Bool := decide (s.rs = .halted)

/-- What a host renders a console event into: decimal digits, a line break, the character of a code
point. How these become bytes is the host's business (R88). -/
inductive Glyph where
  | digit (d : Nat)
  | lineBreak
  | codePoint (v : Nat)
  deriving DecidableEq, Repr

/-- The decimal digits of a byte, with no leading zero, and 0 for 0 (R88). -/
def decimalDigits (v : Nat) : List Nat :=
  if v < 10 then [v] else if v < 100 then [v / 10, v % 10] else [v / 100, v / 10 % 10, v % 10]

/-- Rendering of one event (R88). -/
def renderEvent : OutEvent → List Glyph
  | .dec v => (decimalDigits v.toNat).map .digit ++ [.lineBreak]
  | .chr v => [.codePoint v.toNat]

/-- Rendering of the console output sequence (R88). -/
def renderOut (events : List OutEvent) : List Glyph := events.flatMap renderEvent

end Sys2Proof.Machine
end

