-- ==== Sys2Proof/Safety.lean ====
section
/-! DEFINITION. The terms in which statements are made: frames (what stays as it was), the invariant of the
machine, a safe run, and the premise a program must carry about its stack (spec/10_state.md R38). -/

namespace Sys2Proof.Machine

/-! ### Frames -/

/-- Every register but those in `rs` is as it was. -/
def SameRegsBut (rs : List (Fin 8)) (s t : State) : Prop :=
  ∀ r : Fin 8, r ∉ rs → t.getReg r = s.getReg r

/-- Every byte of memory but those at addresses in `as` reads as it did. -/
def SameMemoryBut (as : List Nat) (s t : State) : Prop :=
  ∀ a : Nat, a ∉ as → t.mem.read a = s.mem.read a

/-- The mask, the status, the controller and the coming draws of irq_in (the model's own field, log entry 1)
are as they were. -/
def SameInterrupts (s t : State) : Prop :=
  t.im = s.im ∧ t.is = s.is ∧ t.ic = s.ic ∧ t.irqIn = s.irqIn

/-- The run state and the halt record are as they were. -/
def SameRun (s t : State) : Prop := t.rs = s.rs ∧ t.hr = s.hr

/-- Only registers in `rs`, memory bytes at addresses in `as` and pc may differ. -/
def OnlyChanges (rs : List (Fin 8)) (as : List Nat) (s t : State) : Prop :=
  SameRegsBut rs s t ∧ SameMemoryBut as s t ∧ SameInterrupts s t ∧ SameRun s t ∧
    t.fl = s.fl ∧ t.out = s.out

/-- `t` is `s` halted by the fatal error `k`: RS, HR and nothing else differ (R129). -/
def HaltedBy (k : FatalKind) (s t : State) : Prop :=
  t.rs = .halted ∧ t.hr = .fatal k s.pc ∧ t.pc = s.pc ∧ SameRegsBut [] s t ∧ t.mem = s.mem ∧
    SameInterrupts s t ∧ t.fl = s.fl ∧ t.out = s.out

/-! ### Operands and the boundary -/

/-- Operand byte `b` names register `r` (R60). -/
def NamesReg (b : Byte) (r : Fin 8) : Prop := b.toNat = r.val

/-- The value of the register that an operand byte names, and 0 for a byte that names none. -/
def operandValue (s : State) (b : Byte) : Byte :=
  if h : b.toNat < 8 then s.getReg ⟨b.toNat, h⟩ else 0#8

/-- A Running machine that accepts no interrupt at this boundary, so that its step is an instruction
(R67, R134). -/
def AtInstruction (s : State) : Prop := s.rs = .running ∧ acceptedLine (sampleIrq s) = none

/-- The bytes `bs` stand in memory at pc and upward, none of them past 0xFF (R70, R71). -/
def BytesAtPc (bs : List Byte) (s : State) : Prop :=
  s.pc.toNat + bs.length ≤ 256 ∧
    ∀ (k : Nat) (h : k < bs.length), s.mem.read (s.pc.toNat + k) = bs[k]

/-- The 34 opcode values of the opcode map (R62). -/
def listedOpcodes : List Nat :=
  [0x00, 0x01, 0x11, 0x13, 0x45, 0x46, 0x47, 0x48, 0x50, 0x52, 0x54, 0x55, 0x56, 0x57, 0x58, 0x59, 0x5A,
   0x65, 0x66, 0x69, 0x82, 0x83, 0x84, 0xA0, 0xA1, 0xA2, 0xA3, 0xA4, 0xA7, 0xA8, 0xAA, 0xAB, 0xAC, 0xAD]

/-- Instruction `i` in state `s` reaches the point where the address after it must fit in a byte: it
advances, or is CALL with its return address (R123 (b), (c)); DIV, MOD and INT pass their own condition
first (R130). -/
def NeedsSeq : Instr → State → Prop
  | .hlt, _ | .ret, _ | .iret, _ | .jmp _, _ => False
  | .jeq _, s => s.fl.e = false
  | .jne _, s => s.fl.e = true
  | .jgt _, s => s.fl.g = false
  | .jlt _, s => s.fl.l = false
  | .jle _, s => s.fl.l = false ∧ s.fl.e = false
  | .jge _, s => s.fl.g = false ∧ s.fl.e = false
  | .div _ b, s | .mod _ b, s => operandValue s b ≠ 0#8
  | .int a, s => (operandValue s a).toNat ≤ 7
  | .nop, _ | .call _, _ | .push _, _ | .pop _, _ | .prn _, _ | .pra _, _ => True
  | .inc _, _ | .dec _, _ | .not _, _ | .ldi _ _, _ | .ld _ _, _ | .st _ _, _ => True
  | .add _ _, _ | .sub _ _, _ | .mul _ _, _ | .cmp _ _, _ => True
  | .and _ _, _ | .or _ _, _ | .xor _ _, _ | .shl _ _, _ | .shr _ _, _ => True

/-! ### Shapes of results -/

/-- `i` completes: register `ra` gets `v`, pc moves on by `n`, and nothing else changes. -/
def WritesReg (i : Instr) (ra : Fin 8) (v : Byte) (n : Nat) (s : State) : Prop :=
  ∃ t, exec i s = .next t ∧ t.getReg ra = v ∧ t.pc.toNat = s.pc.toNat + n ∧ OnlyChanges [ra] [] s t

/-- `i` completes: pc becomes `target` when `c` holds, else it moves on by 2 (where that fits in a byte);
nothing else changes (R94). -/
def JumpsWhen (i : Instr) (c : Bool) (target : Byte) (s : State) : Prop :=
  (c = true → ∃ t, exec i s = .next t ∧ t.pc = target ∧ OnlyChanges [] [] s t) ∧
    (c = false → s.pc.toNat + 2 ≤ 0xFF →
      ∃ t, exec i s = .next t ∧ t.pc.toNat = s.pc.toNat + 2 ∧ OnlyChanges [] [] s t)

/-- The launch table of R37 for a program image and a mask: every state element the spec gives has the
value of the table. A key of memory above 0xFF, which is no address, reads as 0 (log entry 10). -/
def LaunchTable (image : List Byte) (im : Byte) (s : State) : Prop :=
  (∀ r : Fin 8, r ≠ 7 → s.getReg r = 0x00#8) ∧ s.sp = 0xF4#8 ∧ s.pc = 0x00#8 ∧
    s.fl = Flags.mk false false false ∧ s.im = im ∧ s.is = 0x00#8 ∧ s.ic = .normal ∧
    s.rs = .running ∧ s.hr = .none ∧ s.out = [] ∧
    (∀ (k : Nat) (h : k < image.length), s.mem.read k = image[k]) ∧
    ∀ k : Nat, image.length ≤ k → s.mem.read k = 0x00#8

/-! ### The text form of a program image (R152, R153) -/

/-- White space inside a line; which characters it is, is the model's choice (log entry 6). -/
def WhiteSpace (cs : List Char) : Prop := ∀ c ∈ cs, c = ' ' ∨ c = '\t' ∨ c = '\r'

/-- The end of a line: nothing, or a `#` comment. -/
def LineEnd (cs : List Char) : Prop := cs = [] ∨ ∃ comment, cs = '#' :: comment

/-- A line that is blank, or blank up to its comment; that white space counts as nothing here is the model's
choice (log entry 6). -/
def BlankLine (line : List Char) : Prop :=
  ∃ blank rest, WhiteSpace blank ∧ LineEnd rest ∧ line = blank ++ rest

/-- The 8-digit binary literal of a byte, most significant bit first. -/
def literalDigits (v : Byte) : List Char :=
  [7, 6, 5, 4, 3, 2, 1, 0].map (fun k => if v.getLsbD k then '1' else '0')

/-- A line that holds the literal of `v`, with white space and a comment allowed after it; that nothing stands
before the literal is the model's choice (log entry 6). -/
def LiteralLine (v : Byte) (line : List Char) : Prop :=
  ∃ blank rest, WhiteSpace blank ∧ LineEnd rest ∧ line = literalDigits v ++ (blank ++ rest)

/-- The lines of an image supply these bytes: one byte a literal, in the order of the lines, and none a blank
line. Lines of which one is neither supply nothing. -/
inductive ImageBytes : List (List Char) → List Byte → Prop where
  | nil : ImageBytes [] []
  | blank {line text bs} : BlankLine line → ImageBytes text bs → ImageBytes (line :: text) bs
  | literal {line text v bs} : LiteralLine v line → ImageBytes text bs → ImageBytes (line :: text) (v :: bs)

/-! ### The invariant -/

/-- The halt record says what the run state says: None exactly while Running, and after a fatal error
pc still holds the address that the record names; StackImbalanceError is never recorded (R30, R31,
R127, R129). -/
def HaltConsistent (s : State) : Prop :=
  (s.rs = .running ↔ s.hr = .none) ∧
    ∀ k p, s.hr = .fatal k p → s.pc = p ∧ k ≠ .stackImbalanceError

/-- The invariant every step keeps: memory is in its canonical form, and the halt record is consistent. -/
def Inv (s : State) : Prop := s.mem.wf ∧ HaltConsistent s

/-! ### Safe runs -/

/-- A step that is not a fatal error: it answers a state that no fatal error has halted. -/
def SafeStep (s : State) : Prop :=
  ∃ t, step s = .next t ∧ ∀ k p, t.hr ≠ .fatal k p

/-- The premise about SP that a proof about a program must carry, since the hardware checks no bound
(R38, R51): SP stays within `[lo, hi]`. -/
def SpWithin (lo hi : Nat) (s : State) : Prop := lo ≤ s.sp.toNat ∧ s.sp.toNat ≤ hi

/-- A successful end of a run: Halted by HLT, status code 0 (R31, R122, R158). -/
def EndedNormally (s : State) : Prop := s.rs = .halted ∧ s.hr = .normal

end Sys2Proof.Machine
end

