-- ==== Sys2Proof/Certificates/Slice0/Obligations.lean ====
section
/-! DEFINITION. The statements for the provers, from the numbered rules of the spec. -/

open Sys2Proof Sys2Proof.Machine

/-! ### Encoding (spec/30_encoding.md) -/

/-- R58, R61, R62: decoding an encoded instruction gives it back with every operand byte, and what decodes
to an instruction is exactly its encoding followed by the bytes left over. The byte values are the spec's own
decision D2 (log entry 8). -/
def Obligations.DecodeAndEncodeAgree : Prop :=
  (∀ (i : Instr) (rest : List Byte), decode (encode i ++ rest) = .ok (i, rest)) ∧
    ∀ (bs rest : List Byte) (i : Instr), decode bs = .ok (i, rest) → bs = encode i ++ rest

/-- R62: one word of every family, written out bit by bit, decodes to its instruction. The byte values are
the spec's own decision D2 (log entry 8). -/
def Obligations.WrittenOutWordsDecode : Prop :=
  decode [0b00000001#8] = .ok (.hlt, []) ∧
  decode [0b10000010#8, 0b00000011#8, 0b11001000#8] = .ok (.ldi 3 200, []) ∧
  decode [0b10000100#8, 0b00000001#8, 0b00000010#8] = .ok (.st 1 2, []) ∧
  decode [0b01000110#8, 0b00000111#8] = .ok (.pop 7, []) ∧
  decode [0b01011010#8, 0b00000010#8] = .ok (.jge 2, []) ∧
  decode [0b01010010#8, 0b00000000#8] = .ok (.int 0, []) ∧
  decode [0b10101101#8, 0b00000000#8, 0b00000001#8] = .ok (.shr 0 1, [])

/-- R63: a byte outside the 34 values is rejected whatever follows it, and every other byte selects an
instruction, so its decoding is never an unsupported opcode. -/
def Obligations.OnlyListedOpcodesDecode : Prop :=
  ∀ (b0 : Byte) (rest : List Byte),
    decode (b0 :: rest) = .error (.unsupported b0) ↔ b0.toNat ∉ listedOpcodes

/-! ### The step (spec/30_encoding.md R67 to R76) -/

/-- R76: a step of a Halted machine leaves every state element, the coming draws of irq_in too, unchanged. -/
def Obligations.HaltedStepChangesNothing : Prop :=
  ∀ s : State, s.rs = .halted → step s = .next s

/-- R67 (c), R70, R71, R74: where the bytes at pc decode to `i` and no interrupt is accepted, the step is
`exec i` on the state whose IS has been sampled. -/
def Obligations.StepRunsDecodedInstruction : Prop :=
  ∀ (s : State) (i : Instr) (rest : List Byte),
    AtInstruction s → decode (fetchBytes (sampleIrq s)) = .ok (i, rest) → step s = exec i (sampleIrq s)

/-- R70, R71, R80: an instruction stored at pc in its encoding is the one the step executes, whatever
stands behind it, up to the top of memory. -/
def Obligations.PlacedInstructionRuns : Prop :=
  ∀ (s : State) (i : Instr),
    AtInstruction s → BytesAtPc (encode i) s → step s = exec i (sampleIrq s)

/-- R64, R121: an opcode byte outside the 34 halts the machine with UnsupportedOperationError, at any pc
(no operand byte is fetched). -/
def Obligations.UnlistedOpcodeHalts : Prop :=
  ∀ s : State, AtInstruction s → (s.mem.read s.pc.toNat).toNat ∉ listedOpcodes →
    ∃ t, step s = .next t ∧ HaltedBy .unsupportedOperationError (sampleIrq s) t

/-- R71, R123 (a): a valid opcode whose operand bytes would pass 0xFF halts the machine with AddressError. -/
def Obligations.OperandFetchPastTopHalts : Prop :=
  ∀ (s : State) (i : Instr), AtInstruction s →
    (encode i).head? = some (s.mem.read s.pc.toNat) → 256 < s.pc.toNat + (encode i).length →
    ∃ t, step s = .next t ∧ HaltedBy .addressError (sampleIrq s) t

/-! ### Fatal errors (spec/60_exceptions.md R122 to R130) -/

/-- R124: an instruction that has been fetched and has a register operand byte above 7 halts the machine with
RegisterError, whatever else is wrong with it (R130) and whether or not it would use the register. -/
def Obligations.BadRegisterOperandHalts : Prop :=
  ∀ (s : State) (i : Instr), i.wellFormed = false →
    ∃ t, exec i s = .next t ∧ HaltedBy .registerError s t

/-- R125: DIV and MOD with a divisor register that holds 0 halt the machine with DivideByZeroError and
write no result, also where the next pc would not fit (R130). -/
def Obligations.ZeroDivisorHalts : Prop :=
  ∀ (s : State) (a b : Byte) (ra rb : Fin 8), NamesReg a ra → NamesReg b rb → s.getReg rb = 0#8 →
    (∃ t, exec (.div a b) s = .next t ∧ HaltedBy .divideByZeroError s t) ∧
    (∃ t, exec (.mod a b) s = .next t ∧ HaltedBy .divideByZeroError s t)

/-- R103, R126 (b): INT with a line number above 7 halts the machine with UnsupportedOperationError. -/
def Obligations.IntLineAboveSevenHalts : Prop :=
  ∀ (s : State) (a : Byte) (ra : Fin 8), NamesReg a ra → 7 < (s.getReg ra).toNat →
    ∃ t, exec (.int a) s = .next t ∧ HaltedBy .unsupportedOperationError s t

/-- R13, R72, R123 (b) and (c): an instruction that advances, or CALL, whose following address does not
fit in a byte halts the machine with AddressError and commits nothing. -/
def Obligations.NextPcPastTopHalts : Prop :=
  ∀ (s : State) (i : Instr), i.wellFormed = true → NeedsSeq i s →
    0xFF < s.pc.toNat + (encode i).length →
    ∃ t, exec i s = .next t ∧ HaltedBy .addressError s t

/-- R129: when a step of a Running machine ends in a fatal error, every write of the instruction is
discarded, HR names the kind and the pc of the opcode, pc keeps it, the bits sampled into IS stay, and
the status output shows the code of R122. -/
def Obligations.FatalErrorCommitsNothing : Prop :=
  ∀ (s t : State) (k : FatalKind) (p : Byte), s.rs = .running → s.hr = .none →
    step s = .next t → t.hr = .fatal k p →
    p = s.pc ∧ HaltedBy k (sampleIrq s) t ∧
      ((k = .addressError ∧ statusCode t.hr = some 1) ∨ (k = .registerError ∧ statusCode t.hr = some 2) ∨
        (k = .divideByZeroError ∧ statusCode t.hr = some 3) ∨
        (k = .unsupportedOperationError ∧ statusCode t.hr = some 4))

/-- R67, R148, R158: every state has a next state; nothing stops the model. Log entry 2 (DEDUCED): a fatal
error is taken as a next state. -/
def Obligations.EveryStepAnswersNext : Prop :=
  ∀ s : State, ∃ t, step s = .next t

/-! ### Interrupts (spec/60_exceptions.md R131 to R141) -/

/-- R68: at the boundary IS becomes IS OR the draw of irq_in, and nothing else of the spec's state changes.
The list of draws is the model's own field (log entry 1, DESIGN CHOICE). -/
def Obligations.SamplingOrsTheDraw : Prop :=
  ∀ (s : State) (d : Byte) (ds : List Byte), s.irqIn = d :: ds →
    (∀ j : Nat, (sampleIrq s).is.getLsbD j = (s.is.getLsbD j || d.getLsbD j)) ∧
    (sampleIrq s).irqIn = ds ∧ (sampleIrq s).im = s.im ∧ (sampleIrq s).ic = s.ic ∧
    (sampleIrq s).pc = s.pc ∧ (sampleIrq s).fl = s.fl ∧ (sampleIrq s).mem = s.mem ∧
    (sampleIrq s).out = s.out ∧ SameRun s (sampleIrq s) ∧ SameRegsBut [] s (sampleIrq s)

/-- R134: after the sampling, a Running machine accepts an interrupt if and only if IC is Normal and
IS AND IM is not 0; a Halted machine accepts nothing. -/
def Obligations.AcceptedExactlyWhenNormalAndPending : Prop :=
  (∀ s : State, s.rs = .running →
    ((∃ i, step s = .next (interruptEntry i (sampleIrq s)) ∧ acceptedLine (sampleIrq s) = some i) ↔
      (s.ic = .normal ∧ (sampleIrq s).is &&& s.im ≠ 0#8))) ∧
  ∀ s : State, s.rs = .halted → step s = .next s

/-- R135: the line taken is the lowest-numbered one that is pending and enabled, and the other lines stay
pending. -/
def Obligations.LowestLineIsTaken : Prop :=
  ∀ (s : State) (i : Fin 8), s.rs = .running → s.ic = .normal →
    (sampleIrq s).is.getLsbD i = true → s.im.getLsbD i = true →
    (∀ j : Fin 8, j < i → ¬ ((sampleIrq s).is.getLsbD j = true ∧ s.im.getLsbD j = true)) →
    ∃ t, step s = .next t ∧ t = interruptEntry i (sampleIrq s) ∧
      t.is.getLsbD i = false ∧
      ∀ j : Fin 8, j ≠ i → t.is.getLsbD j = (sampleIrq s).is.getLsbD j

/-- R136, and the frame that R137 derives from it: interrupt entry is a step of its own; it pushes pc, the FL byte and R0 to R6 in that order, at
SP - 1 down to SP - 9 modulo 256, lowers SP by 9, clears the line's IS bit alone, sets IC to Handling and
takes pc from the vector as memory holds it after the pushes; FL, IM, R0 to R6, OUT, RS, HR and every
other byte of memory are unchanged. The step uses up one draw of the model's own list irqIn (log entry 1, DESIGN
CHOICE). -/
def Obligations.InterruptEntryBuildsFrame : Prop :=
  ∀ (s : State) (i : Fin 8), s.rs = .running → acceptedLine (sampleIrq s) = some i →
    ∃ t, step s = .next t ∧
      t.mem.read (s.sp - 1#8).toNat = s.pc ∧
      t.mem.read (s.sp - 2#8).toNat = flByte s.fl ∧
      (∀ r : Fin 8, r ≠ 7 → t.mem.read (s.sp - 3#8 - BitVec.ofNat 8 r.val).toNat = s.getReg r) ∧
      t.sp = s.sp - 9#8 ∧
      t.pc = t.mem.read (0xF8 + i.val) ∧
      t.ic = .handling ∧
      (∀ j : Fin 8, t.is.getLsbD j = ((sampleIrq s).is.getLsbD j && decide (j ≠ i))) ∧
      t.fl = s.fl ∧ t.im = s.im ∧ t.out = s.out ∧ SameRun s t ∧ t.irqIn = s.irqIn.tail ∧
      SameRegsBut [7] s t ∧
      ∀ a : Nat, (∀ k : Nat, 1 ≤ k → k ≤ 9 → a ≠ (s.sp - BitVec.ofNat 8 k).toNat) →
        t.mem.read a = s.mem.read a

/-- R138: while IC is Handling no interrupt is taken, whatever IS and IM hold, and every pending line stays
pending over the step. -/
def Obligations.HandlingHoldsEveryLine : Prop :=
  ∀ s t : State, s.rs = .running → s.ic = .handling → step s = .next t →
    AtInstruction s ∧ step s = stepInstr (sampleIrq s) ∧
    ∀ j : Fin 8, (sampleIrq s).is.getLsbD j = true → t.is.getLsbD j = true

/-- R104, R136, R139: an interrupt entry and a later IRET restore pc, FL, every register and SP exactly as
before the interrupt, where the handler leaves SP and the nine bytes of the frame as the entry left them,
whatever else it changes; IC is Normal again. -/
def Obligations.InterruptRoundTripRestores : Prop :=
  ∀ (s t u : State) (i : Fin 8), s.rs = .running → acceptedLine (sampleIrq s) = some i →
    step s = .next t → u.sp = t.sp →
    (∀ k : Nat, k < 9 → u.mem.read (t.sp + BitVec.ofNat 8 k).toNat = t.mem.read (t.sp + BitVec.ofNat 8 k).toNat) →
    ∃ v, exec .iret u = .next v ∧ v.pc = s.pc ∧ v.fl = s.fl ∧ (∀ r : Fin 8, v.getReg r = s.getReg r) ∧
      v.ic = .normal

/-- R103, R162: the line that INT raises while it is enabled and IC is Normal, with no lower line pending and
enabled and no external request after it, is entered at the very next step, and pc is its vector. -/
def Obligations.IntIsTakenAtTheNextStep : Prop :=
  ∀ (s t : State) (a : Byte) (ra line : Fin 8), s.rs = .running → s.ic = .normal → s.irqIn = [] →
    NamesReg a ra → (s.getReg ra).toNat = line.val → s.pc.toNat + 2 ≤ 0xFF → s.im.getLsbD line = true →
    (∀ j : Fin 8, j < line → ¬ (s.is.getLsbD j = true ∧ s.im.getLsbD j = true)) →
    exec (.int a) s = .next t →
    ∃ u, step t = .next u ∧ u.ic = .handling ∧ u.pc = u.mem.read (0xF8 + line.val) ∧
      u.is.getLsbD line = false ∧ (u.mem.read (s.sp - 1#8).toNat).toNat = s.pc.toNat + 2

/-- R132: the host's write of IM changes IM alone, and a line that is pending and masked is entered at the
next step once the host has unmasked it, where IC is Normal, no external request comes with that step and
no lower line is pending and enabled. -/
def Obligations.UnmaskedPendingLineIsTaken : Prop :=
  ∀ (s : State) (v : Byte) (i : Fin 8), s.rs = .running → s.ic = .normal → s.irqIn = [] →
    s.is.getLsbD i = true → s.im.getLsbD i = false → v.getLsbD i = true →
    (∀ j : Fin 8, j < i → ¬ (s.is.getLsbD j = true ∧ v.getLsbD j = true)) →
    (hostWriteIm v s).im = v ∧ (hostWriteIm v s).setIm s.im = s ∧
    ∃ t, step (hostWriteIm v s) = .next t ∧ t.ic = .handling ∧ t.is.getLsbD i = false ∧
      t.pc = t.mem.read (0xF8 + i.val)

/-! ### Machine control (spec/40_machine_control.md) -/

/-- R81: HLT sets RS to Halted and HR to Normal at any pc; pc and everything else are unchanged. -/
def Obligations.HltHalts : Prop :=
  ∀ s : State, ∃ t, exec .hlt s = .next t ∧ t.rs = .halted ∧ t.hr = .normal ∧ t.pc = s.pc ∧
    SameRegsBut [] s t ∧ t.mem = s.mem ∧ SameInterrupts s t ∧ t.fl = s.fl ∧ t.out = s.out

/-- R82: NOP moves pc on by 1 and changes nothing else; at 0xFF it is AddressError. -/
def Obligations.NopOnlyAdvances : Prop :=
  ∀ s : State,
    (s.pc.toNat < 0xFF → ∃ t, exec .nop s = .next t ∧ t.pc.toNat = s.pc.toNat + 1 ∧ OnlyChanges [] [] s t) ∧
    (s.pc.toNat = 0xFF → ∃ t, exec .nop s = .next t ∧ HaltedBy .addressError s t)

/-! ### Load, store and console output (spec/41_load_store_io.md) -/

/-- R83: LDI writes the immediate byte into register A and changes nothing else but pc. -/
def Obligations.LdiLoadsTheImmediate : Prop :=
  ∀ (s : State) (a imm : Byte) (ra : Fin 8), NamesReg a ra → s.pc.toNat + 3 ≤ 0xFF →
    WritesReg (.ldi a imm) ra imm 3 s

/-- R84: LD writes the byte of memory at the address in register B into register A, also where A is B, and
changes nothing else but pc. -/
def Obligations.LdLoadsTheByte : Prop :=
  ∀ (s : State) (a b : Byte) (ra rb : Fin 8), NamesReg a ra → NamesReg b rb → s.pc.toNat + 3 ≤ 0xFF →
    WritesReg (.ld a b) ra (s.mem.read (s.getReg rb).toNat) 3 s

/-- R85: ST writes register B to memory at the address in register A; no register changes, and no other
byte of memory does. -/
def Obligations.StStoresTheByte : Prop :=
  ∀ (s : State) (a b : Byte) (ra rb : Fin 8), NamesReg a ra → NamesReg b rb → s.pc.toNat + 3 ≤ 0xFF →
    ∃ t, exec (.st a b) s = .next t ∧ t.mem.read (s.getReg ra).toNat = s.getReg rb ∧
      t.pc.toNat = s.pc.toNat + 3 ∧ OnlyChanges [] [(s.getReg ra).toNat] s t

/-- R86, R87: PRN appends Dec(x[ra]) and PRA appends Chr(x[ra]) to OUT; nothing else but pc changes. -/
def Obligations.PrnAndPraAppendOneEvent : Prop :=
  ∀ (s : State) (a : Byte) (ra : Fin 8), NamesReg a ra → s.pc.toNat + 2 ≤ 0xFF →
    ∀ p ∈ [(Instr.prn a, OutEvent.dec (s.getReg ra)), (Instr.pra a, OutEvent.chr (s.getReg ra))],
      ∃ t, exec p.1 s = .next t ∧ t.out = s.out ++ [p.2] ∧ t.pc.toNat = s.pc.toNat + 2 ∧
        SameRegsBut [] s t ∧ SameMemoryBut [] s t ∧ SameInterrupts s t ∧ SameRun s t ∧ t.fl = s.fl

/-- R88: Dec(v) is rendered as the decimal numeral of v with no leading zero and then a line break, and
Chr(v) as the character of code point v with no line break. -/
def Obligations.ConsoleEventsRender : Prop :=
  (∀ v : Byte, ∃ ds : List Nat, renderEvent (.dec v) = ds.map .digit ++ [.lineBreak] ∧
    ds.foldl (fun acc d => 10 * acc + d) 0 = v.toNat ∧ (∀ d ∈ ds, d < 10) ∧
    ds ≠ [] ∧ (1 < ds.length → ds.head? ≠ some 0)) ∧
  ∀ v : Byte, renderEvent (.chr v) = [.codePoint v.toNat]

/-! ### Stack instructions (spec/42_stack.md, spec/20_memory.md R47, R48) -/

/-- R47, R48: Push lowers SP by 1 modulo 256 and then writes at the new SP; Pop gives the byte at SP and
raises SP by 1 modulo 256, leaving the byte in memory. That SP wraps and is not checked is the spec's own
decision D16 (log entry 8). -/
def Obligations.PushAndPopPrimitives : Prop :=
  (∀ (s : State) (v : Byte), (s.push v).sp = s.sp - 1#8 ∧ (s.push v).mem.read (s.push v).sp.toNat = v ∧
    (s.push v).pc = s.pc ∧ OnlyChanges [7] [(s.sp - 1#8).toNat] s (s.push v)) ∧
  (∀ s : State, s.popValue = s.mem.read s.sp.toNat ∧ s.popRest.sp = s.sp + 1#8 ∧
    s.popRest.pc = s.pc ∧ OnlyChanges [7] [] s s.popRest)

/-- R89: PUSH writes the value register A had before the push at SP - 1 and lowers SP by 1, so PUSH R7
pushes the old SP. -/
def Obligations.PushStoresTheRegister : Prop :=
  ∀ (s : State) (a : Byte) (ra : Fin 8), NamesReg a ra → s.pc.toNat + 2 ≤ 0xFF →
    ∃ t, exec (.push a) s = .next t ∧ t.sp = s.sp - 1#8 ∧
      t.mem.read (s.sp - 1#8).toNat = s.getReg ra ∧ t.pc.toNat = s.pc.toNat + 2 ∧
      OnlyChanges [7] [(s.sp - 1#8).toNat] s t

/-- R90: POP writes the byte at SP into register A and raises SP by 1, except that POP R7 leaves the popped
byte in SP; memory is unchanged. -/
def Obligations.PopLoadsTheRegister : Prop :=
  ∀ (s : State) (a : Byte) (ra : Fin 8), NamesReg a ra → s.pc.toNat + 2 ≤ 0xFF →
    ∃ t, exec (.pop a) s = .next t ∧ t.getReg ra = s.mem.read s.sp.toNat ∧
      (ra ≠ 7 → t.sp = s.sp + 1#8) ∧ t.pc.toNat = s.pc.toNat + 2 ∧ OnlyChanges [ra, 7] [] s t

/-- R89, R90: PUSH then POP of the same register restores it and SP, for every register, R7 too. -/
def Obligations.PushThenPopRestores : Prop :=
  ∀ (s : State) (a : Byte) (ra : Fin 8), NamesReg a ra → s.pc.toNat + 4 ≤ 0xFF →
    ∃ t u, exec (.push a) s = .next t ∧ exec (.pop a) t = .next u ∧ ∀ r : Fin 8, u.getReg r = s.getReg r

/-! ### Control transfer (spec/43_control_transfer.md) -/

/-- R91: CALL pushes pc + 2 and jumps to the value register A had before the push, so CALL R7 jumps to the
old SP. -/
def Obligations.CallPushesTheReturnAddress : Prop :=
  ∀ (s : State) (a : Byte) (ra : Fin 8), NamesReg a ra → s.pc.toNat + 2 ≤ 0xFF →
    ∃ t, exec (.call a) s = .next t ∧ t.pc = s.getReg ra ∧ t.sp = s.sp - 1#8 ∧
      (t.mem.read (s.sp - 1#8).toNat).toNat = s.pc.toNat + 2 ∧ OnlyChanges [7] [(s.sp - 1#8).toNat] s t

/-- R92: RET pops pc at any pc and any SP; IC and everything else but SP are unchanged. -/
def Obligations.RetPopsThePc : Prop :=
  ∀ s : State, ∃ t, exec .ret s = .next t ∧ t.pc = s.mem.read s.sp.toNat ∧ t.sp = s.sp + 1#8 ∧
    OnlyChanges [7] [] s t

/-- R91, R92: after a CALL, a RET executed with SP and the byte at SP as the CALL left them returns to the
instruction after the CALL, with SP as it was before the CALL. -/
def Obligations.CallThenRetReturns : Prop :=
  ∀ (s t u : State) (a : Byte) (ra : Fin 8), NamesReg a ra → s.pc.toNat + 2 ≤ 0xFF →
    exec (.call a) s = .next t → u.sp = t.sp → u.mem.read t.sp.toNat = t.mem.read t.sp.toNat →
    ∃ v, exec .ret u = .next v ∧ v.pc.toNat = s.pc.toNat + 2 ∧ v.sp = s.sp

/-- R93: JMP sets pc to register A and changes nothing else; it never uses the address after it. -/
def Obligations.JmpSetsPc : Prop :=
  ∀ (s : State) (a : Byte) (ra : Fin 8), NamesReg a ra →
    ∃ t, exec (.jmp a) s = .next t ∧ t.pc = s.getReg ra ∧ OnlyChanges [] [] s t

/-- R94 to R100: each conditional jump goes to register A when its condition on E, G and L holds, and else
to pc + 2; it changes nothing but pc. -/
def Obligations.ConditionalJumpsFollowTheFlags : Prop :=
  ∀ (s : State) (a : Byte) (ra : Fin 8), NamesReg a ra →
    JumpsWhen (.jeq a) s.fl.e (s.getReg ra) s ∧
    JumpsWhen (.jne a) (!s.fl.e) (s.getReg ra) s ∧
    JumpsWhen (.jgt a) s.fl.g (s.getReg ra) s ∧
    JumpsWhen (.jlt a) s.fl.l (s.getReg ra) s ∧
    JumpsWhen (.jle a) (s.fl.l || s.fl.e) (s.getReg ra) s ∧
    JumpsWhen (.jge a) (s.fl.g || s.fl.e) (s.getReg ra) s

/-! ### Interrupt instructions (spec/44_interrupt_instr.md) -/

/-- R103: INT with a line number of at most 7 sets that bit of IS and no other, and moves pc on by 2; it
does not enter the handler itself, and changes nothing else. -/
def Obligations.IntSetsThePendingBit : Prop :=
  ∀ (s : State) (a : Byte) (ra : Fin 8), NamesReg a ra → (s.getReg ra).toNat ≤ 7 →
    s.pc.toNat + 2 ≤ 0xFF →
    ∃ t, exec (.int a) s = .next t ∧ t.pc.toNat = s.pc.toNat + 2 ∧
      (∀ j : Nat, t.is.getLsbD j = (s.is.getLsbD j || decide (j = (s.getReg ra).toNat))) ∧
      t.im = s.im ∧ t.ic = s.ic ∧ t.irqIn = s.irqIn ∧ SameRun s t ∧ t.fl = s.fl ∧ t.out = s.out ∧
      SameRegsBut [] s t ∧ SameMemoryBut [] s t

/-- R104: IRET pops R6 first and R0 last, then FL from bits 0, 1 and 2 of a byte, then pc, raises SP by 9
modulo 256 and sets IC to Normal, whatever IC was (the spec's own decision D15, log entry 8); memory, IM, IS, RS,
HR and OUT are unchanged. -/
def Obligations.IretPopsTheFrame : Prop :=
  ∀ s : State, ∃ t, exec .iret s = .next t ∧
    (∀ r : Fin 8, r ≠ 7 → t.getReg r = s.mem.read (s.sp + 6#8 - BitVec.ofNat 8 r.val).toNat) ∧
    t.fl.e = (s.mem.read (s.sp + 7#8).toNat).getLsbD 0 ∧
    t.fl.g = (s.mem.read (s.sp + 7#8).toNat).getLsbD 1 ∧
    t.fl.l = (s.mem.read (s.sp + 7#8).toNat).getLsbD 2 ∧
    t.pc = s.mem.read (s.sp + 8#8).toNat ∧ t.sp = s.sp + 9#8 ∧ t.ic = .normal ∧
    t.im = s.im ∧ t.is = s.is ∧ t.irqIn = s.irqIn ∧ SameRun s t ∧ t.out = s.out ∧ SameMemoryBut [] s t

/-! ### ALU (spec/45_alu.md) -/

/-- R106, R107, R108: ADD, SUB and MUL write the sum, the difference and the product modulo 256 into
register A; FL and everything else but pc are unchanged. -/
def Obligations.AddSubMulWrap : Prop :=
  ∀ (s : State) (a b : Byte) (ra rb : Fin 8), NamesReg a ra → NamesReg b rb → s.pc.toNat + 3 ≤ 0xFF →
    WritesReg (.add a b) ra (s.getReg ra + s.getReg rb) 3 s ∧
    WritesReg (.sub a b) ra (s.getReg ra - s.getReg rb) 3 s ∧
    WritesReg (.mul a b) ra (s.getReg ra * s.getReg rb) 3 s

/-- R109, R110: with a divisor that is not 0, DIV writes the unsigned floor quotient and MOD the unsigned
remainder into register A; FL and everything else but pc are unchanged. -/
def Obligations.DivModAreUnsigned : Prop :=
  ∀ (s : State) (a b : Byte) (ra rb : Fin 8), NamesReg a ra → NamesReg b rb → s.getReg rb ≠ 0#8 →
    s.pc.toNat + 3 ≤ 0xFF →
    ∃ q r : Byte, q.toNat = (s.getReg ra).toNat / (s.getReg rb).toNat ∧
      r.toNat = (s.getReg ra).toNat % (s.getReg rb).toNat ∧
      WritesReg (.div a b) ra q 3 s ∧ WritesReg (.mod a b) ra r 3 s

/-- R111, R112, R117: INC adds 1 and DEC takes 1 away modulo 256, NOT writes 255 - a; FL and everything else
but pc are unchanged. -/
def Obligations.IncDecNotResults : Prop :=
  ∀ (s : State) (a : Byte) (ra : Fin 8), NamesReg a ra → s.pc.toNat + 2 ≤ 0xFF →
    WritesReg (.inc a) ra (s.getReg ra + 1#8) 2 s ∧
    WritesReg (.dec a) ra (s.getReg ra - 1#8) 2 s ∧
    WritesReg (.not a) ra (255#8 - s.getReg ra) 2 s

/-- R114, R115, R116: AND, OR and XOR work bit by bit and write register A; FL and everything else but pc
are unchanged. -/
def Obligations.AndOrXorAreBitwise : Prop :=
  ∀ (s : State) (a b : Byte) (ra rb : Fin 8), NamesReg a ra → NamesReg b rb → s.pc.toNat + 3 ≤ 0xFF →
    ∃ x y z : Byte,
      (∀ j : Nat, x.getLsbD j = ((s.getReg ra).getLsbD j && (s.getReg rb).getLsbD j) ∧
        y.getLsbD j = ((s.getReg ra).getLsbD j || (s.getReg rb).getLsbD j) ∧
        z.getLsbD j = ((s.getReg ra).getLsbD j ^^ (s.getReg rb).getLsbD j)) ∧
      WritesReg (.and a b) ra x 3 s ∧ WritesReg (.or a b) ra y 3 s ∧ WritesReg (.xor a b) ra z 3 s

/-- R118, R119: SHL and SHR shift by the whole byte of register B, filling with 0, so a shift by 8 or more
gives 0; FL and everything else but pc are unchanged. -/
def Obligations.ShiftsUseTheWholeAmount : Prop :=
  ∀ (s : State) (a b : Byte) (ra rb : Fin 8), NamesReg a ra → NamesReg b rb → s.pc.toNat + 3 ≤ 0xFF →
    ∃ x y : Byte,
      x.toNat = (s.getReg ra).toNat * 2 ^ (s.getReg rb).toNat % 256 ∧
      y.toNat = (s.getReg ra).toNat / 2 ^ (s.getReg rb).toNat ∧
      (8 ≤ (s.getReg rb).toNat → x = 0#8 ∧ y = 0#8) ∧
      WritesReg (.shl a b) ra x 3 s ∧ WritesReg (.shr a b) ra y 3 s

/-- R113, R26: CMP sets E, G and L by the unsigned comparison, so exactly one of them is set; it writes no
register and changes nothing else but pc. -/
def Obligations.CmpSetsExactlyOneFlag : Prop :=
  ∀ (s : State) (a b : Byte) (ra rb : Fin 8), NamesReg a ra → NamesReg b rb → s.pc.toNat + 3 ≤ 0xFF →
    ∃ t, exec (.cmp a b) s = .next t ∧
      (t.fl.e = true ↔ (s.getReg ra).toNat = (s.getReg rb).toNat) ∧
      (t.fl.g = true ↔ (s.getReg rb).toNat < (s.getReg ra).toNat) ∧
      (t.fl.l = true ↔ (s.getReg ra).toNat < (s.getReg rb).toNat) ∧
      t.fl ∈ [Flags.mk true false false, Flags.mk false true false, Flags.mk false false true] ∧
      t.pc.toNat = s.pc.toNat + 3 ∧ SameRegsBut [] s t ∧ SameMemoryBut [] s t ∧ SameInterrupts s t ∧
      SameRun s t ∧ t.out = s.out

/-- R120: SUB of b after ADD of b returns to a, for every pair of registers that are not the same one. -/
def Obligations.AddThenSubReturns : Prop :=
  ∀ (s : State) (a b : Byte) (ra rb : Fin 8), NamesReg a ra → NamesReg b rb → ra ≠ rb →
    s.pc.toNat + 6 ≤ 0xFF →
    ∃ t u, exec (.add a b) s = .next t ∧ exec (.sub a b) t = .next u ∧ ∀ r : Fin 8, u.getReg r = s.getReg r

/-! ### Whole-machine rules -/

/-- R37: a launch leaves every state element at the value of the launch table: the image at 0x00 upward and
0 at every other address, IM as the host writes it; `State.reset` meets the table for no image and IM 0. All values but those of SP, RS, HR and memory are the spec's
own decision D8 (log entry 8). The launched state meets the invariant `Inv`; its canonical form of memory, and that
a key above 0xFF reads as 0, are the model's choice (log entry 10). -/
def Obligations.LaunchGivesTheResetTable : Prop :=
  (∀ (image : List Byte) (im : Byte), image.length ≤ 256 →
    ∃ s, launch image im = some s ∧ LaunchTable image im s ∧ Inv s) ∧
  LaunchTable [] 0x00#8 State.reset

/-- R152, R153: a line is read as the byte v exactly when it is the 8-digit literal of v, most significant bit
first, followed by nothing but white space and a comment; as a comment exactly when it is blank up to a comment
or its end; and as malformed exactly when it is neither. An image gives the bytes of its literal lines in order,
the others supplying none. With a malformed line, or with more than 256 bytes, the core never starts; otherwise
it starts with these bytes from address 0 upward and 0 at every other address. What counts as white space,
that a line of white space, or with white space alone before its comment, is blank, and that a literal stands at
the start of its line, are the model's choice (log entry 6). -/
def Obligations.ImageTextIsRead : Prop :=
  (∀ (line : List Char) (v : Byte), readImageLine line = .byte v ↔ LiteralLine v line) ∧
  (∀ line : List Char, readImageLine line = .comment ↔ BlankLine line) ∧
  (∀ line : List Char, readImageLine line = .malformed ↔ ¬ BlankLine line ∧ ∀ v : Byte, ¬ LiteralLine v line) ∧
  (∀ (text : List (List Char)) (bs : List Byte), readImage text = some bs ↔ ImageBytes text bs) ∧
  (∀ (text : List (List Char)) (im : Byte),
    (∃ line ∈ text, ¬ BlankLine line ∧ ∀ v : Byte, ¬ LiteralLine v line) → launchText text im = none) ∧
  ∀ (text : List (List Char)) (bs : List Byte) (im : Byte), ImageBytes text bs →
    (256 < bs.length → launchText text im = none) ∧
    (bs.length ≤ 256 → ∃ s, launchText text im = some s ∧ LaunchTable bs im s)

/-- R40: a read of an address gives the value last written there, and a write changes no other address. -/
def Obligations.ReadAfterWrite : Prop :=
  ∀ (m : Memory) (a b : Nat) (v w : Byte),
    ((m.write a v).write b w).read a = (if a = b then w else v) ∧
      ∀ c : Nat, c ≠ a → c ≠ b → ((m.write a v).write b w).read c = m.read c

/-- The reset state meets the invariant `Inv`, whose canonical form of memory is the model's choice (log entry
10). -/
def Obligations.ResetMeetsTheInvariant : Prop := Inv State.reset

/-- R30, R31, R39, R127, R129: every step keeps the invariant: memory stays inside [0, 255] and in the canonical
form of its list (addresses rising, no cell holding 0), which is the model's choice (log entry 10); RS and HR agree, pc stays at the address a fatal record names, and StackImbalanceError is never
recorded. -/
def Obligations.EveryStepKeepsTheInvariant : Prop :=
  ∀ s t : State, Inv s → step s = .next t → Inv t

/-- R27: no instruction reads or writes IM: with another value in IM an instruction has the same effect,
and IM keeps its value; no step writes it either. -/
def Obligations.NoInstructionReadsOrWritesIm : Prop :=
  (∀ (i : Instr) (s : State) (v : Byte), ∃ t, exec i s = .next t ∧ t.im = s.im ∧
    exec i (s.setIm v) = .next (t.setIm v)) ∧
  ∀ s t : State, step s = .next t → t.im = s.im

/-- R25: FL is written by CMP and IRET alone; interrupt entry leaves it as it is. That no other ALU instruction
writes FL is the spec's own decision D5 (log entry 8). -/
def Obligations.OnlyCmpAndIretWriteFlags : Prop :=
  (∀ (i : Instr) (s t : State), exec i s = .next t → (∀ a b, i ≠ .cmp a b) → i ≠ .iret → t.fl = s.fl) ∧
  ∀ (s : State) (i : Fin 8), (interruptEntry i s).fl = s.fl

/-- R28, R133: no instruction clears a bit of IS, and INT alone sets one. -/
def Obligations.OnlyIntWritesPendingBits : Prop :=
  ∀ (i : Instr) (s t : State), exec i s = .next t →
    (∀ j : Nat, s.is.getLsbD j = true → t.is.getLsbD j = true) ∧ ((∀ a, i ≠ .int a) → t.is = s.is)

/-- R29: interrupt entry sets IC to Handling, IRET sets it to Normal, and no other instruction writes it. Over a
step IC goes from Normal to Handling only by an interrupt entry, and from Handling to Normal only by an IRET. -/
def Obligations.OnlyEntryAndIretWriteController : Prop :=
  (∀ (s : State) (i : Fin 8), (interruptEntry i s).ic = .handling) ∧
  (∀ (i : Instr) (s t : State), exec i s = .next t → i ≠ .iret → t.ic = s.ic) ∧
  (∀ s t : State, exec .iret s = .next t → t.ic = .normal) ∧
  (∀ s t : State, step s = .next t → s.ic = .normal → t.ic = .handling →
    ∃ i, acceptedLine (sampleIrq s) = some i ∧ t = interruptEntry i (sampleIrq s)) ∧
  ∀ s t : State, step s = .next t → s.ic = .handling → t.ic = .normal →
    AtInstruction s ∧ fetchInstr (sampleIrq s) = .ok .iret

/-- R34, R88: OUT only grows, by at most one event a step, and only PRN and PRA append. -/
def Obligations.OutputOnlyGrows : Prop :=
  (∀ (i : Instr) (s t : State), exec i s = .next t → (∀ a, i ≠ .prn a ∧ i ≠ .pra a) → t.out = s.out) ∧
  ∀ s t : State, step s = .next t → ∃ es, t.out = s.out ++ es ∧ es.length ≤ 1

/-- R30, R148: a step of a Running machine leaves it Halted only where it executes HLT, with HR Normal, or by a
fatal error, with HR naming the pc of the step; so an interrupt entry halts nothing, and an instruction halts only
so. -/
def Obligations.HaltedOnlyByHltOrFatalError : Prop :=
  (∀ s t : State, s.rs = .running → step s = .next t → t.rs = .halted →
    AtInstruction s ∧
      ((fetchInstr (sampleIrq s) = .ok .hlt ∧ t.hr = .normal) ∨ ∃ k, t.hr = .fatal k s.pc)) ∧
  ∀ (i : Instr) (s t : State), s.rs = .running → exec i s = .next t → t.rs = .halted →
    (i = .hlt ∧ t.hr = .normal) ∨ ∃ k, t.hr = .fatal k s.pc

/-- R24: bit 0 of the FL byte is E, bit 1 is G, bit 2 is L and bits 7:3 are 0; reading a byte back takes
those bits and ignores the others. The positions are the spec's own decisions D6 and D7 (log entry 8). -/
def Obligations.FlagByteImage : Prop :=
  (∀ f : Flags, (flByte f).getLsbD 0 = f.e ∧ (flByte f).getLsbD 1 = f.g ∧ (flByte f).getLsbD 2 = f.l ∧
    (∀ j : Nat, 3 ≤ j → (flByte f).getLsbD j = false) ∧ flOfByte (flByte f) = f) ∧
  ∀ b : Byte, flOfByte b = Flags.mk (b.getLsbD 0) (b.getLsbD 1) (b.getLsbD 2)

/-! ### The external timer (spec/60_exceptions.md R142) -/

/-- R7, R142: the timer is a request on TIMER_LINE at TIMER_PERIOD that reaches the core as part of the draw of
irq_in: at a step where it is due, a Running machine with IC Normal, the line enabled and no lower line pending and
enabled enters that line, and at every other step the run is the one without the timer. That the period is
counted in steps from a phase is the model's choice (log entry 7). -/
def Obligations.TimerInterruptsAtItsPeriod : Prop :=
  ∀ (line : Fin 8) (period phase n : Nat) (irq : Byte) (s : State), 0 < period →
    timerRequest line period phase (n + period) = timerRequest line period phase n ∧
    (n % period ≠ phase % period →
      ∀ ms, hostRun (addTimer line period phase n (.step irq :: ms)) s =
        hostRun (.step irq :: addTimer line period phase (n + 1) ms) s) ∧
    (n % period = phase % period → s.rs = .running → s.ic = .normal → s.im.getLsbD line = true →
      (∀ j : Fin 8, j < line → ¬ ((s.is ||| irq).getLsbD j = true ∧ s.im.getLsbD j = true)) →
      ∃ t, hostRun (addTimer line period phase n [.step irq]) s = .next t ∧ t.ic = .handling ∧
        t.is.getLsbD line = false ∧ t.pc = t.mem.read (0xF8 + line.val))
end

