-- ==== Sys2Proof/Laws/Memory.lean ====
section
/-! SUPPORT. The laws of memory: a read gives the last value written, a write leaves every other address
alone, and every operation keeps the canonical form (spec/20_memory.md R40, R45). -/

namespace Sys2Proof.Machine

/-! ### Reading after erase and insert -/

theorem Memory.read_erase_self (m : Memory) (a : Nat) : (m.erase a).read a = 0#8 := by
  unfold Memory.erase
  induction m with
  | nil => rfl
  | cons c m ih =>
    obtain ⟨k, w⟩ := c
    by_cases h : k = a
    · simpa [h] using ih
    · have h' : ¬ a = k := fun e => h e.symm
      simpa [h, h', Memory.read] using ih

theorem Memory.read_erase_ne (m : Memory) {a b : Nat} (h : b ≠ a) : (m.erase a).read b = m.read b := by
  unfold Memory.erase
  induction m with
  | nil => rfl
  | cons c m ih =>
    obtain ⟨k, w⟩ := c
    by_cases hk : k = a
    · have hb : ¬ b = k := fun e => h (e.trans hk)
      subst hk
      simpa [hb, Memory.read] using ih
    · by_cases hb : b = k <;> simp_all [Memory.read]

theorem Memory.read_insert_self (m : Memory) (a : Nat) (v : Byte) (h : ∀ c ∈ m, c.1 ≠ a) :
    (m.insert a v).read a = v := by
  induction m with
  | nil => simp [Memory.insert, Memory.read]
  | cons c m ih =>
    obtain ⟨k, w⟩ := c
    have hk : ¬ a = k := fun e => h (k, w) (by simp) e.symm
    have ih' := ih fun c hc => h c (by simp [hc])
    by_cases hlt : a < k <;> simp [Memory.insert, hlt, Memory.read, hk, ih']

theorem Memory.read_insert_ne (m : Memory) {a b : Nat} (v : Byte) (h : b ≠ a) :
    (m.insert a v).read b = m.read b := by
  induction m with
  | nil => simp [Memory.insert, Memory.read, h]
  | cons c m ih =>
    obtain ⟨k, w⟩ := c
    by_cases hlt : a < k
    · simp [Memory.insert, hlt, Memory.read, h]
    · by_cases hb : b = k <;> simp [Memory.insert, hlt, Memory.read, hb, ih]

/-! ### Reading after a write -/

/-- A read of the address written gives the value written (R40). -/
theorem Memory.read_write_self (m : Memory) (a : Nat) (v : Byte) : (m.write a v).read a = v := by
  unfold Memory.write
  split
  · next h => rw [Memory.read_erase_self, h]
  · exact Memory.read_insert_self _ _ _ fun c hc => by simpa using (List.mem_filter.mp hc).2

/-- A read of any other address gives what it gave (R40). -/
theorem Memory.read_write_ne (m : Memory) {a b : Nat} (v : Byte) (h : b ≠ a) :
    (m.write a v).read b = m.read b := by
  unfold Memory.write
  split
  · exact Memory.read_erase_ne m h
  · rw [Memory.read_insert_ne _ v h, Memory.read_erase_ne m h]

/-- Both laws in one. -/
theorem Memory.read_write (m : Memory) (a b : Nat) (v : Byte) :
    (m.write a v).read b = if b = a then v else m.read b := by
  split
  · next h => rw [h, Memory.read_write_self]
  · next h => exact Memory.read_write_ne m v h

/-! ### The canonical form -/

theorem Memory.wf_erase {m : Memory} (h : m.wf) (a : Nat) : (m.erase a).wf :=
  ⟨h.1.filter _, fun c hc => h.2 c (List.mem_filter.mp hc).1⟩

theorem Memory.mem_insert {m : Memory} {a : Nat} {v : Byte} {c : Host.Cell} (h : c ∈ m.insert a v) :
    c = (a, v) ∨ c ∈ m := by
  induction m with
  | nil => simpa [Memory.insert] using h
  | cons d m ih =>
    obtain ⟨k, w⟩ := d
    by_cases hlt : a < k
    · simpa [Memory.insert, hlt] using h
    · simp only [Memory.insert, hlt, if_false, List.mem_cons] at h
      rcases h with h | h
      · simp [h]
      · rcases ih h with h | h <;> simp [h]

theorem Memory.pairwise_insert {m : Memory} {a : Nat} {v : Byte}
    (h : m.Pairwise (fun c d => c.1 < d.1)) (hne : ∀ c ∈ m, c.1 ≠ a) :
    (m.insert a v).Pairwise (fun c d => c.1 < d.1) := by
  induction m with
  | nil => simp [Memory.insert]
  | cons c m ih =>
    obtain ⟨k, w⟩ := c
    obtain ⟨h1, h2⟩ := List.pairwise_cons.mp h
    have hk : k ≠ a := hne (k, w) (by simp)
    by_cases hlt : a < k
    · simp only [Memory.insert, hlt, if_true]
      refine List.pairwise_cons.mpr ⟨fun c hc => ?_, h⟩
      rcases List.mem_cons.mp hc with rfl | hc
      · exact hlt
      · exact Nat.lt_trans hlt (h1 c hc)
    · simp only [Memory.insert, hlt, if_false]
      refine List.pairwise_cons.mpr ⟨fun c hc => ?_, ih h2 fun c hc => hne c (by simp [hc])⟩
      rcases Memory.mem_insert hc with rfl | hc
      · show k < a
        omega
      · exact h1 c hc

/-- A write inside the address space keeps the canonical form. -/
theorem Memory.wf_write {m : Memory} (h : m.wf) {a : Nat} (ha : a < Config.memSize) (v : Byte) :
    (m.write a v).wf := by
  unfold Memory.write
  split
  · exact Memory.wf_erase h a
  · next hv =>
    have he := Memory.wf_erase h a
    refine ⟨Memory.pairwise_insert he.1 fun c hc => by simpa using (List.mem_filter.mp hc).2, ?_⟩
    intro c hc
    rcases Memory.mem_insert hc with rfl | hc
    · exact ⟨ha, hv⟩
    · exact he.2 c hc

/-- A write at an 8-bit address keeps the canonical form (R41). -/
theorem Memory.wf_store {m : Memory} (h : m.wf) (a v : Byte) : (m.write a.toNat v).wf :=
  Memory.wf_write h a.isLt v

/-- Placing bytes keeps the canonical form. -/
theorem Memory.wf_writeBytes (vs : List Byte) :
    ∀ {m : Memory} (_ : m.wf) (a : Nat), (m.writeBytes a vs).wf := by
  induction vs with
  | nil => intro m h a; simpa [Memory.writeBytes] using h
  | cons v vs ih =>
    intro m h a
    unfold Memory.writeBytes
    split
    · next ha => exact ih (Memory.wf_write h (Nat.lt_succ_of_le ha) v) _
    · exact h

/-- The empty memory, which reset holds, is in the canonical form. -/
theorem Memory.wf_nil : Memory.wf ([] : Memory) := ⟨List.Pairwise.nil, by simp⟩

/-- A memory in the canonical form lists nothing outside the address space, so such an address reads as 0. -/
theorem Memory.read_above {m : Memory} (h : m.wf) {a : Nat} (ha : Config.memSize ≤ a) : m.read a = 0#8 := by
  have h2 := h.2
  clear h
  induction m with
  | nil => rfl
  | cons c m ih =>
    obtain ⟨k, w⟩ := c
    have hk := (h2 (k, w) (by simp)).1
    have : ¬ a = k := by simp only at hk; omega
    simp only [Memory.read, this, if_false]
    exact ih fun c hc => h2 c (by simp [hc])

end Sys2Proof.Machine
end

