-- ==== Sys2Proof/Laws/State.lean ====
section
/-! SUPPORT. What every field of the state is after every named update, one lemma a field, each true by
unfolding the update once; later proofs cite these and never unfold a record update. -/

namespace Sys2Proof.Machine

/-! ### setReg -/

@[simp] theorem State.setReg_x (s : State) (r : Fin 8) (v : Byte) : (s.setReg r v).x = s.x.set r v := rfl
@[simp] theorem State.setReg_pc (s : State) (r : Fin 8) (v : Byte) : (s.setReg r v).pc = s.pc := rfl
@[simp] theorem State.setReg_fl (s : State) (r : Fin 8) (v : Byte) : (s.setReg r v).fl = s.fl := rfl
@[simp] theorem State.setReg_im (s : State) (r : Fin 8) (v : Byte) : (s.setReg r v).im = s.im := rfl
@[simp] theorem State.setReg_is (s : State) (r : Fin 8) (v : Byte) : (s.setReg r v).is = s.is := rfl
@[simp] theorem State.setReg_ic (s : State) (r : Fin 8) (v : Byte) : (s.setReg r v).ic = s.ic := rfl
@[simp] theorem State.setReg_rs (s : State) (r : Fin 8) (v : Byte) : (s.setReg r v).rs = s.rs := rfl
@[simp] theorem State.setReg_hr (s : State) (r : Fin 8) (v : Byte) : (s.setReg r v).hr = s.hr := rfl
@[simp] theorem State.setReg_mem (s : State) (r : Fin 8) (v : Byte) : (s.setReg r v).mem = s.mem := rfl
@[simp] theorem State.setReg_out (s : State) (r : Fin 8) (v : Byte) : (s.setReg r v).out = s.out := rfl
@[simp] theorem State.setReg_irqIn (s : State) (r : Fin 8) (v : Byte) : (s.setReg r v).irqIn = s.irqIn := rfl

/-! ### setPc -/

@[simp] theorem State.setPc_x (s : State) (v : Byte) : (s.setPc v).x = s.x := rfl
@[simp] theorem State.setPc_pc (s : State) (v : Byte) : (s.setPc v).pc = v := rfl
@[simp] theorem State.setPc_fl (s : State) (v : Byte) : (s.setPc v).fl = s.fl := rfl
@[simp] theorem State.setPc_im (s : State) (v : Byte) : (s.setPc v).im = s.im := rfl
@[simp] theorem State.setPc_is (s : State) (v : Byte) : (s.setPc v).is = s.is := rfl
@[simp] theorem State.setPc_ic (s : State) (v : Byte) : (s.setPc v).ic = s.ic := rfl
@[simp] theorem State.setPc_rs (s : State) (v : Byte) : (s.setPc v).rs = s.rs := rfl
@[simp] theorem State.setPc_hr (s : State) (v : Byte) : (s.setPc v).hr = s.hr := rfl
@[simp] theorem State.setPc_mem (s : State) (v : Byte) : (s.setPc v).mem = s.mem := rfl
@[simp] theorem State.setPc_out (s : State) (v : Byte) : (s.setPc v).out = s.out := rfl
@[simp] theorem State.setPc_irqIn (s : State) (v : Byte) : (s.setPc v).irqIn = s.irqIn := rfl
@[simp] theorem State.setPc_getReg (s : State) (v : Byte) (q : Fin 8) : (s.setPc v).getReg q = s.getReg q := rfl
@[simp] theorem State.setPc_sp (s : State) (v : Byte) : (s.setPc v).sp = s.sp := rfl

/-! ### setFl -/

@[simp] theorem State.setFl_x (s : State) (f : Flags) : (s.setFl f).x = s.x := rfl
@[simp] theorem State.setFl_pc (s : State) (f : Flags) : (s.setFl f).pc = s.pc := rfl
@[simp] theorem State.setFl_fl (s : State) (f : Flags) : (s.setFl f).fl = f := rfl
@[simp] theorem State.setFl_im (s : State) (f : Flags) : (s.setFl f).im = s.im := rfl
@[simp] theorem State.setFl_is (s : State) (f : Flags) : (s.setFl f).is = s.is := rfl
@[simp] theorem State.setFl_ic (s : State) (f : Flags) : (s.setFl f).ic = s.ic := rfl
@[simp] theorem State.setFl_rs (s : State) (f : Flags) : (s.setFl f).rs = s.rs := rfl
@[simp] theorem State.setFl_hr (s : State) (f : Flags) : (s.setFl f).hr = s.hr := rfl
@[simp] theorem State.setFl_mem (s : State) (f : Flags) : (s.setFl f).mem = s.mem := rfl
@[simp] theorem State.setFl_out (s : State) (f : Flags) : (s.setFl f).out = s.out := rfl
@[simp] theorem State.setFl_irqIn (s : State) (f : Flags) : (s.setFl f).irqIn = s.irqIn := rfl
@[simp] theorem State.setFl_getReg (s : State) (f : Flags) (q : Fin 8) : (s.setFl f).getReg q = s.getReg q := rfl
@[simp] theorem State.setFl_sp (s : State) (f : Flags) : (s.setFl f).sp = s.sp := rfl

/-! ### setIs -/

@[simp] theorem State.setIs_x (s : State) (v : Byte) : (s.setIs v).x = s.x := rfl
@[simp] theorem State.setIs_pc (s : State) (v : Byte) : (s.setIs v).pc = s.pc := rfl
@[simp] theorem State.setIs_fl (s : State) (v : Byte) : (s.setIs v).fl = s.fl := rfl
@[simp] theorem State.setIs_im (s : State) (v : Byte) : (s.setIs v).im = s.im := rfl
@[simp] theorem State.setIs_is (s : State) (v : Byte) : (s.setIs v).is = v := rfl
@[simp] theorem State.setIs_ic (s : State) (v : Byte) : (s.setIs v).ic = s.ic := rfl
@[simp] theorem State.setIs_rs (s : State) (v : Byte) : (s.setIs v).rs = s.rs := rfl
@[simp] theorem State.setIs_hr (s : State) (v : Byte) : (s.setIs v).hr = s.hr := rfl
@[simp] theorem State.setIs_mem (s : State) (v : Byte) : (s.setIs v).mem = s.mem := rfl
@[simp] theorem State.setIs_out (s : State) (v : Byte) : (s.setIs v).out = s.out := rfl
@[simp] theorem State.setIs_irqIn (s : State) (v : Byte) : (s.setIs v).irqIn = s.irqIn := rfl
@[simp] theorem State.setIs_getReg (s : State) (v : Byte) (q : Fin 8) : (s.setIs v).getReg q = s.getReg q := rfl
@[simp] theorem State.setIs_sp (s : State) (v : Byte) : (s.setIs v).sp = s.sp := rfl

/-! ### setIm -/

@[simp] theorem State.setIm_x (s : State) (v : Byte) : (s.setIm v).x = s.x := rfl
@[simp] theorem State.setIm_pc (s : State) (v : Byte) : (s.setIm v).pc = s.pc := rfl
@[simp] theorem State.setIm_fl (s : State) (v : Byte) : (s.setIm v).fl = s.fl := rfl
@[simp] theorem State.setIm_im (s : State) (v : Byte) : (s.setIm v).im = v := rfl
@[simp] theorem State.setIm_is (s : State) (v : Byte) : (s.setIm v).is = s.is := rfl
@[simp] theorem State.setIm_ic (s : State) (v : Byte) : (s.setIm v).ic = s.ic := rfl
@[simp] theorem State.setIm_rs (s : State) (v : Byte) : (s.setIm v).rs = s.rs := rfl
@[simp] theorem State.setIm_hr (s : State) (v : Byte) : (s.setIm v).hr = s.hr := rfl
@[simp] theorem State.setIm_mem (s : State) (v : Byte) : (s.setIm v).mem = s.mem := rfl
@[simp] theorem State.setIm_out (s : State) (v : Byte) : (s.setIm v).out = s.out := rfl
@[simp] theorem State.setIm_irqIn (s : State) (v : Byte) : (s.setIm v).irqIn = s.irqIn := rfl
@[simp] theorem State.setIm_getReg (s : State) (v : Byte) (q : Fin 8) : (s.setIm v).getReg q = s.getReg q := rfl
@[simp] theorem State.setIm_sp (s : State) (v : Byte) : (s.setIm v).sp = s.sp := rfl

/-! ### setIc -/

@[simp] theorem State.setIc_x (s : State) (c : Controller) : (s.setIc c).x = s.x := rfl
@[simp] theorem State.setIc_pc (s : State) (c : Controller) : (s.setIc c).pc = s.pc := rfl
@[simp] theorem State.setIc_fl (s : State) (c : Controller) : (s.setIc c).fl = s.fl := rfl
@[simp] theorem State.setIc_im (s : State) (c : Controller) : (s.setIc c).im = s.im := rfl
@[simp] theorem State.setIc_is (s : State) (c : Controller) : (s.setIc c).is = s.is := rfl
@[simp] theorem State.setIc_ic (s : State) (c : Controller) : (s.setIc c).ic = c := rfl
@[simp] theorem State.setIc_rs (s : State) (c : Controller) : (s.setIc c).rs = s.rs := rfl
@[simp] theorem State.setIc_hr (s : State) (c : Controller) : (s.setIc c).hr = s.hr := rfl
@[simp] theorem State.setIc_mem (s : State) (c : Controller) : (s.setIc c).mem = s.mem := rfl
@[simp] theorem State.setIc_out (s : State) (c : Controller) : (s.setIc c).out = s.out := rfl
@[simp] theorem State.setIc_irqIn (s : State) (c : Controller) : (s.setIc c).irqIn = s.irqIn := rfl
@[simp] theorem State.setIc_getReg (s : State) (c : Controller) (q : Fin 8) : (s.setIc c).getReg q = s.getReg q := rfl
@[simp] theorem State.setIc_sp (s : State) (c : Controller) : (s.setIc c).sp = s.sp := rfl

/-! ### halt -/

@[simp] theorem State.halt_x (s : State) (h : HaltRecord) : (s.halt h).x = s.x := rfl
@[simp] theorem State.halt_pc (s : State) (h : HaltRecord) : (s.halt h).pc = s.pc := rfl
@[simp] theorem State.halt_fl (s : State) (h : HaltRecord) : (s.halt h).fl = s.fl := rfl
@[simp] theorem State.halt_im (s : State) (h : HaltRecord) : (s.halt h).im = s.im := rfl
@[simp] theorem State.halt_is (s : State) (h : HaltRecord) : (s.halt h).is = s.is := rfl
@[simp] theorem State.halt_ic (s : State) (h : HaltRecord) : (s.halt h).ic = s.ic := rfl
@[simp] theorem State.halt_rs (s : State) (h : HaltRecord) : (s.halt h).rs = .halted := rfl
@[simp] theorem State.halt_hr (s : State) (h : HaltRecord) : (s.halt h).hr = h := rfl
@[simp] theorem State.halt_mem (s : State) (h : HaltRecord) : (s.halt h).mem = s.mem := rfl
@[simp] theorem State.halt_out (s : State) (h : HaltRecord) : (s.halt h).out = s.out := rfl
@[simp] theorem State.halt_irqIn (s : State) (h : HaltRecord) : (s.halt h).irqIn = s.irqIn := rfl
@[simp] theorem State.halt_getReg (s : State) (h : HaltRecord) (q : Fin 8) : (s.halt h).getReg q = s.getReg q := rfl
@[simp] theorem State.halt_sp (s : State) (h : HaltRecord) : (s.halt h).sp = s.sp := rfl

/-! ### store -/

@[simp] theorem State.store_x (s : State) (a v : Byte) : (s.store a v).x = s.x := rfl
@[simp] theorem State.store_pc (s : State) (a v : Byte) : (s.store a v).pc = s.pc := rfl
@[simp] theorem State.store_fl (s : State) (a v : Byte) : (s.store a v).fl = s.fl := rfl
@[simp] theorem State.store_im (s : State) (a v : Byte) : (s.store a v).im = s.im := rfl
@[simp] theorem State.store_is (s : State) (a v : Byte) : (s.store a v).is = s.is := rfl
@[simp] theorem State.store_ic (s : State) (a v : Byte) : (s.store a v).ic = s.ic := rfl
@[simp] theorem State.store_rs (s : State) (a v : Byte) : (s.store a v).rs = s.rs := rfl
@[simp] theorem State.store_hr (s : State) (a v : Byte) : (s.store a v).hr = s.hr := rfl
@[simp] theorem State.store_mem (s : State) (a v : Byte) : (s.store a v).mem = s.mem.write a.toNat v := rfl
@[simp] theorem State.store_out (s : State) (a v : Byte) : (s.store a v).out = s.out := rfl
@[simp] theorem State.store_irqIn (s : State) (a v : Byte) : (s.store a v).irqIn = s.irqIn := rfl
@[simp] theorem State.store_getReg (s : State) (a v : Byte) (q : Fin 8) : (s.store a v).getReg q = s.getReg q := rfl
@[simp] theorem State.store_sp (s : State) (a v : Byte) : (s.store a v).sp = s.sp := rfl

/-! ### emit -/

@[simp] theorem State.emit_x (s : State) (e : OutEvent) : (s.emit e).x = s.x := rfl
@[simp] theorem State.emit_pc (s : State) (e : OutEvent) : (s.emit e).pc = s.pc := rfl
@[simp] theorem State.emit_fl (s : State) (e : OutEvent) : (s.emit e).fl = s.fl := rfl
@[simp] theorem State.emit_im (s : State) (e : OutEvent) : (s.emit e).im = s.im := rfl
@[simp] theorem State.emit_is (s : State) (e : OutEvent) : (s.emit e).is = s.is := rfl
@[simp] theorem State.emit_ic (s : State) (e : OutEvent) : (s.emit e).ic = s.ic := rfl
@[simp] theorem State.emit_rs (s : State) (e : OutEvent) : (s.emit e).rs = s.rs := rfl
@[simp] theorem State.emit_hr (s : State) (e : OutEvent) : (s.emit e).hr = s.hr := rfl
@[simp] theorem State.emit_mem (s : State) (e : OutEvent) : (s.emit e).mem = s.mem := rfl
@[simp] theorem State.emit_out (s : State) (e : OutEvent) : (s.emit e).out = s.out ++ [e] := rfl
@[simp] theorem State.emit_irqIn (s : State) (e : OutEvent) : (s.emit e).irqIn = s.irqIn := rfl
@[simp] theorem State.emit_getReg (s : State) (e : OutEvent) (q : Fin 8) : (s.emit e).getReg q = s.getReg q := rfl
@[simp] theorem State.emit_sp (s : State) (e : OutEvent) : (s.emit e).sp = s.sp := rfl

/-! ### setIrqIn -/

@[simp] theorem State.setIrqIn_x (s : State) (ds : List Byte) : (s.setIrqIn ds).x = s.x := rfl
@[simp] theorem State.setIrqIn_pc (s : State) (ds : List Byte) : (s.setIrqIn ds).pc = s.pc := rfl
@[simp] theorem State.setIrqIn_fl (s : State) (ds : List Byte) : (s.setIrqIn ds).fl = s.fl := rfl
@[simp] theorem State.setIrqIn_im (s : State) (ds : List Byte) : (s.setIrqIn ds).im = s.im := rfl
@[simp] theorem State.setIrqIn_is (s : State) (ds : List Byte) : (s.setIrqIn ds).is = s.is := rfl
@[simp] theorem State.setIrqIn_ic (s : State) (ds : List Byte) : (s.setIrqIn ds).ic = s.ic := rfl
@[simp] theorem State.setIrqIn_rs (s : State) (ds : List Byte) : (s.setIrqIn ds).rs = s.rs := rfl
@[simp] theorem State.setIrqIn_hr (s : State) (ds : List Byte) : (s.setIrqIn ds).hr = s.hr := rfl
@[simp] theorem State.setIrqIn_mem (s : State) (ds : List Byte) : (s.setIrqIn ds).mem = s.mem := rfl
@[simp] theorem State.setIrqIn_out (s : State) (ds : List Byte) : (s.setIrqIn ds).out = s.out := rfl
@[simp] theorem State.setIrqIn_irqIn (s : State) (ds : List Byte) : (s.setIrqIn ds).irqIn = ds := rfl
@[simp] theorem State.setIrqIn_getReg (s : State) (ds : List Byte) (q : Fin 8) : (s.setIrqIn ds).getReg q = s.getReg q := rfl
@[simp] theorem State.setIrqIn_sp (s : State) (ds : List Byte) : (s.setIrqIn ds).sp = s.sp := rfl

/-! ### push -/

@[simp] theorem State.push_x (s : State) (v : Byte) : (s.push v).x = s.x.set 7 (s.sp - 1#8) := rfl
@[simp] theorem State.push_pc (s : State) (v : Byte) : (s.push v).pc = s.pc := rfl
@[simp] theorem State.push_fl (s : State) (v : Byte) : (s.push v).fl = s.fl := rfl
@[simp] theorem State.push_im (s : State) (v : Byte) : (s.push v).im = s.im := rfl
@[simp] theorem State.push_is (s : State) (v : Byte) : (s.push v).is = s.is := rfl
@[simp] theorem State.push_ic (s : State) (v : Byte) : (s.push v).ic = s.ic := rfl
@[simp] theorem State.push_rs (s : State) (v : Byte) : (s.push v).rs = s.rs := rfl
@[simp] theorem State.push_hr (s : State) (v : Byte) : (s.push v).hr = s.hr := rfl
@[simp] theorem State.push_mem (s : State) (v : Byte) : (s.push v).mem = s.mem.write (s.sp - 1#8).toNat v := rfl
@[simp] theorem State.push_out (s : State) (v : Byte) : (s.push v).out = s.out := rfl
@[simp] theorem State.push_irqIn (s : State) (v : Byte) : (s.push v).irqIn = s.irqIn := rfl

/-! ### popRest -/

@[simp] theorem State.popRest_x (s : State) : s.popRest.x = s.x.set 7 (s.sp + 1#8) := rfl
@[simp] theorem State.popRest_pc (s : State) : s.popRest.pc = s.pc := rfl
@[simp] theorem State.popRest_fl (s : State) : s.popRest.fl = s.fl := rfl
@[simp] theorem State.popRest_im (s : State) : s.popRest.im = s.im := rfl
@[simp] theorem State.popRest_is (s : State) : s.popRest.is = s.is := rfl
@[simp] theorem State.popRest_ic (s : State) : s.popRest.ic = s.ic := rfl
@[simp] theorem State.popRest_rs (s : State) : s.popRest.rs = s.rs := rfl
@[simp] theorem State.popRest_hr (s : State) : s.popRest.hr = s.hr := rfl
@[simp] theorem State.popRest_mem (s : State) : s.popRest.mem = s.mem := rfl
@[simp] theorem State.popRest_out (s : State) : s.popRest.out = s.out := rfl
@[simp] theorem State.popRest_irqIn (s : State) : s.popRest.irqIn = s.irqIn := rfl

/-- Writing pc with the value it holds changes nothing. -/
theorem State.setPc_self (s : State) : s.setPc s.pc = s := rfl

/-! ### Registers -/

/-- A register file read after a write: the written register, or what was there. -/
theorem State.getReg_setReg (s : State) (r q : Fin 8) (v : Byte) :
    (s.setReg r v).getReg q = if q = r then v else s.getReg q := by
  unfold State.getReg State.setReg
  by_cases h : q = r
  · subst h; simp
  · have h' : (r : Nat) ≠ (q : Nat) := fun e => h (Fin.ext e.symm)
    simp [h, Vector.getElem_set_ne, h']

@[simp] theorem State.getReg_setReg_self (s : State) (r : Fin 8) (v : Byte) :
    (s.setReg r v).getReg r = v := by simp [State.getReg_setReg]

theorem State.getReg_setReg_ne (s : State) {r q : Fin 8} (v : Byte) (h : q ≠ r) :
    (s.setReg r v).getReg q = s.getReg q := by simp [State.getReg_setReg, h]

/-- SP is register 7 (R19). -/
theorem State.sp_eq (s : State) : s.sp = s.getReg 7 := rfl

/-- SP after a register write. -/
theorem State.sp_setReg (s : State) (r : Fin 8) (v : Byte) :
    (s.setReg r v).sp = if 7 = r then v else s.sp := s.getReg_setReg r 7 v

@[simp] theorem State.push_sp (s : State) (v : Byte) : (s.push v).sp = s.sp - 1#8 := by
  simp [State.push, State.sp_setReg]

@[simp] theorem State.popRest_sp (s : State) : s.popRest.sp = s.sp + 1#8 := by
  simp [State.popRest, State.sp_setReg]

theorem State.getReg_push (s : State) (v : Byte) {q : Fin 8} (h : q ≠ 7) :
    (s.push v).getReg q = s.getReg q := by
  simp [State.push, State.getReg_setReg_ne, h]

theorem State.getReg_popRest (s : State) {q : Fin 8} (h : q ≠ 7) :
    s.popRest.getReg q = s.getReg q := State.getReg_setReg_ne s _ h

/-- Two states with the same fields are the same state; registers are compared one by one. -/
theorem State.ext_fields {s t : State} (hx : ∀ r, s.getReg r = t.getReg r) (hpc : s.pc = t.pc)
    (hfl : s.fl = t.fl) (him : s.im = t.im) (his : s.is = t.is) (hic : s.ic = t.ic) (hrs : s.rs = t.rs)
    (hhr : s.hr = t.hr) (hmem : s.mem = t.mem) (hout : s.out = t.out) (hirq : s.irqIn = t.irqIn) :
    s = t := by
  have hx' : s.x = t.x := Vector.ext fun i hi => hx ⟨i, hi⟩
  cases s; cases t; simp_all

end Sys2Proof.Machine
end

