-- ==== Sys2Proof/Laws/Ops.lean ====
section
/-! SUPPORT. One lemma a shared operation, saying once everything it can do: operands, the checked pc, the
transaction, sampling, acceptance, pushing a frame and returning through one. -/

namespace Sys2Proof.Machine

/-! ### Operands (R60) -/

theorem regIdx_of_toNat {b : Byte} {r : Fin 8} (h : b.toNat = r.val) : regIdx b = .ok r := by
  simp [regIdx, h]

theorem regIdx_error {b : Byte} (h : 8 ≤ b.toNat) : regIdx b = .error .registerError := by
  simp [regIdx, Nat.not_lt.mpr h]

/-- RegIdx gives the register the byte names, or RegisterError for a byte above 7. -/
theorem regIdx_cases (b : Byte) :
    (∃ r : Fin 8, b.toNat = r.val ∧ regIdx b = .ok r) ∨
      (8 ≤ b.toNat ∧ regIdx b = .error .registerError) := by
  by_cases h : b.toNat < 8
  · exact .inl ⟨⟨b.toNat, h⟩, rfl, regIdx_of_toNat rfl⟩
  · exact .inr ⟨Nat.not_lt.mp h, regIdx_error (Nat.not_lt.mp h)⟩

theorem isRegIndex_iff (b : Byte) : isRegIndex b = true ↔ b.toNat < 8 := decide_eq_true_iff

/-- A well-formed instruction's register operands are all register indices. -/
theorem wellFormed_iff (i : Instr) : i.wellFormed = true ↔ ∀ b ∈ i.regOperands, b.toNat < 8 := by
  simp only [Instr.wellFormed, List.all_eq_true, isRegIndex_iff]

/-- An instruction that is not well formed has a register operand byte above 7. -/
theorem not_wellFormed_iff (i : Instr) : i.wellFormed = false ↔ ∃ b ∈ i.regOperands, 8 ≤ b.toNat := by
  rw [← Bool.not_eq_true, wellFormed_iff]
  push Not
  rfl

theorem onReg_of_toNat {a : Byte} {ra : Fin 8} (h : a.toNat = ra.val) (k : Fin 8 → Tx) :
    onReg a k = k ra := by simp [onReg, regIdx_of_toNat h]

theorem onReg_error {a : Byte} (h : 8 ≤ a.toNat) (k : Fin 8 → Tx) :
    onReg a k = .error .registerError := by simp [onReg, regIdx_error h]

theorem onRegs_of_toNat {a b : Byte} {ra rb : Fin 8} (ha : a.toNat = ra.val) (hb : b.toNat = rb.val)
    (k : Fin 8 → Fin 8 → Tx) : onRegs a b k = k ra rb := by
  simp [onRegs, onReg_of_toNat ha, onReg_of_toNat hb]

/-- Either operand byte above 7 is RegisterError. -/
theorem onRegs_error {a b : Byte} (h : 8 ≤ a.toNat ∨ 8 ≤ b.toNat) (k : Fin 8 → Fin 8 → Tx) :
    onRegs a b k = .error .registerError := by
  rcases regIdx_cases a with ⟨ra, hra, -⟩ | ⟨ha, -⟩
  · have hb : 8 ≤ b.toNat := by omega
    simp [onRegs, onReg_of_toNat hra, onReg_error hb]
  · simp [onRegs, onReg_error ha]

/-- What a one-register form can answer: the register rule's own answer, or RegisterError. -/
theorem onReg_cases (a : Byte) (k : Fin 8 → Tx) :
    (∃ ra : Fin 8, a.toNat = ra.val ∧ onReg a k = k ra) ∨
      (8 ≤ a.toNat ∧ onReg a k = .error .registerError) := by
  rcases regIdx_cases a with ⟨ra, h, -⟩ | ⟨h, -⟩
  · exact .inl ⟨ra, h, onReg_of_toNat h k⟩
  · exact .inr ⟨h, onReg_error h k⟩

/-- What a two-register form can answer. -/
theorem onRegs_cases (a b : Byte) (k : Fin 8 → Fin 8 → Tx) :
    (∃ ra rb : Fin 8, a.toNat = ra.val ∧ b.toNat = rb.val ∧ onRegs a b k = k ra rb) ∨
      ((8 ≤ a.toNat ∨ 8 ≤ b.toNat) ∧ onRegs a b k = .error .registerError) := by
  rcases regIdx_cases a with ⟨ra, ha, -⟩ | ⟨ha, -⟩
  · rcases regIdx_cases b with ⟨rb, hb, -⟩ | ⟨hb, -⟩
    · exact .inl ⟨ra, rb, ha, hb, onRegs_of_toNat ha hb k⟩
    · exact .inr ⟨.inr hb, onRegs_error (.inr hb) k⟩
  · exact .inr ⟨.inl ha, onRegs_error (.inl ha) k⟩

/-! ### The checked pc (R13, R72) -/

theorem assignPc_ok {v : Nat} (h : v ≤ 0xFF) (s : State) :
    assignPc v s = .ok (s.setPc (BitVec.ofNat 8 v)) := by
  have : ¬ v > Config.topAddr := Nat.not_lt.mpr h
  simp [assignPc, this]

theorem assignPc_error {v : Nat} (h : 0xFF < v) (s : State) : assignPc v s = .error .addressError := by
  have : v > Config.topAddr := h
  simp [assignPc, this]

theorem advance_ok {n : Nat} {s : State} (h : s.pc.toNat + 1 + n ≤ 0xFF) (t : State) :
    advance n s t = .ok (t.setPc (BitVec.ofNat 8 (s.pc.toNat + 1 + n))) := assignPc_ok h t

theorem advance_error {n : Nat} {s : State} (h : 0xFF < s.pc.toNat + 1 + n) (t : State) :
    advance n s t = .error .addressError := assignPc_error h t

/-- The byte `seq` written to pc, as an addition of bytes. -/
theorem ofNat_seq (p : Byte) (k : Nat) : BitVec.ofNat 8 (p.toNat + k) = p + BitVec.ofNat 8 k := by
  apply BitVec.eq_of_toNat_eq
  simp [BitVec.toNat_add]

/-- What an advance can answer: pc moved past the instruction, or AddressError. -/
theorem advance_cases (n : Nat) (s t : State) :
    (s.pc.toNat + 1 + n ≤ 0xFF ∧ advance n s t = .ok (t.setPc (BitVec.ofNat 8 (s.pc.toNat + 1 + n)))) ∨
      (0xFF < s.pc.toNat + 1 + n ∧ advance n s t = .error .addressError) := by
  by_cases h : s.pc.toNat + 1 + n ≤ 0xFF
  · exact .inl ⟨h, advance_ok h t⟩
  · exact .inr ⟨Nat.not_le.mp h, advance_error (Nat.not_le.mp h) t⟩

/-! ### The transaction (R12, R129) -/

@[simp] theorem commit_ok (s t : State) : commit s (.ok t) = .next t := rfl

@[simp] theorem commit_error (s : State) (k : FatalKind) : commit s (.error k) = .next (fatalHalt k s) := rfl

/-- A commit answers a next state: the transaction's, or the fatal halt of the starting state. -/
theorem commit_cases {s t : State} {tx : Tx} (h : commit s tx = .next t) :
    tx = .ok t ∨ ∃ k, tx = .error k ∧ t = fatalHalt k s := by
  cases tx with
  | ok u => exact .inl (by cases h; rfl)
  | error k => exact .inr ⟨k, rfl, by cases h; rfl⟩

/-- The fatal halt is the halt with the record that names the kind and pc. -/
@[simp] theorem fatalHalt_eq (k : FatalKind) (s : State) : fatalHalt k s = s.halt (.fatal k s.pc) := rfl

/-! ### Sampling and acceptance (R68, R134, R135) -/

/-! Sampling writes IS and uses up a draw; nothing else changes. -/

@[simp] theorem sampleIrq_is (s : State) : (sampleIrq s).is = s.is ||| irqDraw s := rfl
@[simp] theorem sampleIrq_irqIn (s : State) : (sampleIrq s).irqIn = s.irqIn.tail := rfl
@[simp] theorem sampleIrq_x (s : State) : (sampleIrq s).x = s.x := rfl
@[simp] theorem sampleIrq_pc (s : State) : (sampleIrq s).pc = s.pc := rfl
@[simp] theorem sampleIrq_fl (s : State) : (sampleIrq s).fl = s.fl := rfl
@[simp] theorem sampleIrq_im (s : State) : (sampleIrq s).im = s.im := rfl
@[simp] theorem sampleIrq_ic (s : State) : (sampleIrq s).ic = s.ic := rfl
@[simp] theorem sampleIrq_rs (s : State) : (sampleIrq s).rs = s.rs := rfl
@[simp] theorem sampleIrq_hr (s : State) : (sampleIrq s).hr = s.hr := rfl
@[simp] theorem sampleIrq_mem (s : State) : (sampleIrq s).mem = s.mem := rfl
@[simp] theorem sampleIrq_out (s : State) : (sampleIrq s).out = s.out := rfl
@[simp] theorem sampleIrq_getReg (s : State) (q : Fin 8) : (sampleIrq s).getReg q = s.getReg q := rfl
@[simp] theorem sampleIrq_sp (s : State) : (sampleIrq s).sp = s.sp := rfl

theorem lines_getElem (k : Fin 8) : lines[k.val]'(by simp [lines]) = k := by revert k; decide

/-- An accepted line: IC is Normal, the line is pending and enabled, and no lower line is. -/
theorem acceptedLine_some {s : State} {i : Fin 8} (h : acceptedLine s = some i) :
    s.ic = .normal ∧ (s.is &&& s.im).getLsbD i.val = true ∧
      ∀ j : Fin 8, j < i → (s.is &&& s.im).getLsbD j.val = false := by
  unfold acceptedLine at h
  split at h
  · next hic =>
    obtain ⟨hp, k, hk, rfl, hlow⟩ := List.find?_eq_some_iff_getElem.mp h
    have hk8 : k < 8 := by simpa [lines] using hk
    have he : lines[k]'hk = ⟨k, hk8⟩ := lines_getElem ⟨k, hk8⟩
    refine ⟨hic, hp, fun j hj => ?_⟩
    rw [he] at hj
    have := hlow j.val hj
    rw [lines_getElem j] at this
    exact Bool.not_eq_true' _ |>.mp this
  · cases h

/-- No line is accepted exactly when IC is Handling or nothing is both pending and enabled. -/
theorem acceptedLine_none {s : State} :
    acceptedLine s = none ↔ s.ic = .handling ∨ ∀ j : Fin 8, (s.is &&& s.im).getLsbD j.val = false := by
  unfold acceptedLine
  cases hic : s.ic with
  | handling => simp
  | normal =>
    rw [List.find?_eq_none]
    constructor
    · exact fun h => .inr fun j => by simpa using h j (by revert j; decide)
    · rintro (h | h)
      · cases h
      · exact fun j _ => by rw [h j]; simp

/-- The mask of a line has that line's bit and no other (R103, R136). -/
theorem lineMask_getLsbD (v : Fin 8) (j : Nat) : (lineMask v.val).getLsbD j = decide (j = v.val) := by
  by_cases h : j < 8
  · have : ∀ v j : Fin 8, (lineMask v.val).getLsbD j.val = decide (j.val = v.val) := by decide
    exact this v ⟨j, h⟩
  · rw [BitVec.getLsbD_of_ge _ _ (by omega)]
    exact (decide_eq_false (by omega)).symm

/-! ### Pushing and popping (R47, R48, R136, R104) -/

theorem pushReg_getReg (s : State) (r : Fin 8) {q : Fin 8} (h : q ≠ 7) :
    (pushReg s r).getReg q = s.getReg q := s.getReg_push _ h

/-- The nine pushes, written out (R136). -/
theorem pushFrame_unfold (s : State) :
    pushFrame s = (((((((((s.push s.pc).push (flByte s.fl)).push (s.getReg 0)).push (s.getReg 1)).push
      (s.getReg 2)).push (s.getReg 3)).push (s.getReg 4)).push (s.getReg 5)).push (s.getReg 6)) := by
  simp [pushFrame, savedRegs, pushReg, State.getReg_push]

/-- Registers other than SP are as they were after the pushes (R136). -/
theorem pushFrame_getReg (s : State) {q : Fin 8} (h : q ≠ 7) : (pushFrame s).getReg q = s.getReg q := by
  simp [pushFrame_unfold, State.getReg_push _ _ h]

/-- SP ends nine lower, modulo 256 (R136, R137). -/
theorem pushFrame_sp (s : State) : (pushFrame s).sp = s.sp - 9#8 := by
  simp [pushFrame_unfold, BitVec.sub_sub]

/-- The memory an entry leaves: the nine bytes of the frame (R137). -/
theorem pushFrame_mem (s : State) :
    (pushFrame s).mem =
      ((((((((s.mem.write (s.sp - 1#8).toNat s.pc).write (s.sp - 2#8).toNat (flByte s.fl)).write
        (s.sp - 3#8).toNat (s.getReg 0)).write (s.sp - 4#8).toNat (s.getReg 1)).write
        (s.sp - 5#8).toNat (s.getReg 2)).write (s.sp - 6#8).toNat (s.getReg 3)).write
        (s.sp - 7#8).toNat (s.getReg 4)).write (s.sp - 8#8).toNat (s.getReg 5)).write
        (s.sp - 9#8).toNat (s.getReg 6) := by
  simp [pushFrame_unfold, BitVec.sub_sub]

/-- Everything but SP and memory is as it was after the pushes (R136). -/
theorem pushFrame_others (s : State) :
    (pushFrame s).pc = s.pc ∧ (pushFrame s).fl = s.fl ∧ (pushFrame s).im = s.im ∧
      (pushFrame s).is = s.is ∧ (pushFrame s).ic = s.ic ∧ (pushFrame s).rs = s.rs ∧
      (pushFrame s).hr = s.hr ∧ (pushFrame s).out = s.out ∧ (pushFrame s).irqIn = s.irqIn := by
  simp [pushFrame_unfold]

/-- What an interrupt entry leaves: the pushed frame, the line's IS bit cleared, IC Handling and pc from
the vector read after the pushes; everything else as it was (R136). -/
theorem interruptEntry_fields (i : Fin 8) (s : State) :
    (interruptEntry i s).mem = (pushFrame s).mem ∧
      (∀ q : Fin 8, (interruptEntry i s).getReg q = (pushFrame s).getReg q) ∧
      (interruptEntry i s).pc = (pushFrame s).load (vectorAddr i) ∧
      (interruptEntry i s).is = s.is &&& ~~~ lineMask i.val ∧
      (interruptEntry i s).ic = .handling ∧ (interruptEntry i s).fl = s.fl ∧
      (interruptEntry i s).im = s.im ∧ (interruptEntry i s).rs = s.rs ∧ (interruptEntry i s).hr = s.hr ∧
      (interruptEntry i s).out = s.out ∧ (interruptEntry i s).irqIn = s.irqIn := by
  obtain ⟨-, h2, h3, h4, -, h6, h7, h8, h9⟩ := pushFrame_others s
  simp [interruptEntry, h2, h3, h4, h6, h7, h8, h9]

/-- The pushed frame keeps memory in its canonical form. -/
theorem pushFrame_wf {s : State} (h : s.mem.wf) : (pushFrame s).mem.wf := by
  rw [pushFrame_mem]
  repeat' apply Memory.wf_store
  exact h

theorem popReg_getReg_ne (s : State) {r q : Fin 8} (h7 : q ≠ 7) (h : q ≠ r) :
    (popReg s r).getReg q = s.getReg q := by
  simp [popReg, State.getReg_setReg_ne _ _ h, State.getReg_popRest _ h7]

@[simp] theorem popReg_getReg_self (s : State) (r : Fin 8) : (popReg s r).getReg r = s.load s.sp := by
  simp [popReg, State.popValue]

@[simp] theorem popReg_sp (s : State) {r : Fin 8} (h : r ≠ 7) : (popReg s r).sp = s.sp + 1#8 := by
  simp [popReg, State.sp_setReg, h.symm]

@[simp] theorem popReg_load (s : State) (r : Fin 8) (a : Byte) : (popReg s r).load a = s.load a := rfl
@[simp] theorem setFl_load (s : State) (f : Flags) (a : Byte) : (s.setFl f).load a = s.load a := rfl
@[simp] theorem popRest_load (s : State) (a : Byte) : s.popRest.load a = s.load a := rfl

/-- What IRET leaves in R0 to R6, in SP, in FL and in pc: the nine bytes from SP upward (R104, R137). -/
theorem interruptReturn_popped (s : State) :
    (∀ q : Fin 8, q ≠ 7 → (interruptReturn s).getReg q = s.load (s.sp + BitVec.ofNat 8 (6 - q.val))) ∧
      (interruptReturn s).sp = s.sp + 9#8 ∧
      (interruptReturn s).fl = flOfByte (s.load (s.sp + 7#8)) ∧
      (interruptReturn s).pc = s.load (s.sp + 8#8) := by
  refine ⟨?_, ?_, ?_, ?_⟩
  · intro q hq
    match q with
    | 0 | 1 | 2 | 3 | 4 | 5 | 6 =>
      simp [interruptReturn, savedRegs, popReg_getReg_ne, State.getReg_popRest, BitVec.add_assoc]
    | 7 => exact absurd rfl hq
  all_goals simp [interruptReturn, savedRegs, State.popValue, BitVec.add_assoc]

/-- What IRET leaves alone: memory, IM, IS, the run state, the output and the coming draws (R104). -/
theorem interruptReturn_others (s : State) :
    (interruptReturn s).mem = s.mem ∧ (interruptReturn s).im = s.im ∧ (interruptReturn s).is = s.is ∧
      (interruptReturn s).ic = .normal ∧ (interruptReturn s).rs = s.rs ∧ (interruptReturn s).hr = s.hr ∧
      (interruptReturn s).out = s.out ∧ (interruptReturn s).irqIn = s.irqIn := by
  simp [interruptReturn, savedRegs, popReg]

end Sys2Proof.Machine
end

