-- ==== Sys2Proof/Laws/Exec.lean ====
section
/-! SUPPORT. What an instruction can do, said once for all of them: it halts the machine with a fatal error, or
it makes its own effect and writes pc. The rules about the whole machine follow from this by cases. -/

namespace Sys2Proof.Machine

/-- The effect of each instruction on everything but pc, with the registers its operands name left open. -/
def Effect : Instr → State → State → Prop
  | .nop, s, u | .jmp _, s, u => u = s
  | .jeq _, s, u | .jne _, s, u | .jgt _, s, u | .jlt _, s, u | .jle _, s, u | .jge _, s, u => u = s
  | .hlt, s, u => u = s.halt .normal
  | .ret, s, u => u = s.popRest
  | .iret, s, u => u = interruptReturn s
  | .push _, s, u | .call _, s, u => ∃ v, u = s.push v
  | .pop _, s, u => ∃ ra, u = popReg s ra
  | .prn _, s, u => ∃ v, u = s.emit (.dec v)
  | .pra _, s, u => ∃ v, u = s.emit (.chr v)
  | .int _, s, u => ∃ v, u = s.setIs (s.is ||| lineMask v)
  | .st _ _, s, u => ∃ a v, u = s.store a v
  | .cmp _ _, s, u => ∃ f, u = s.setFl f
  | .inc _, s, u | .dec _, s, u | .not _, s, u => ∃ ra v, u = s.setReg ra v
  | .ldi _ _, s, u | .ld _ _, s, u => ∃ ra v, u = s.setReg ra v
  | .add _ _, s, u | .sub _ _, s, u | .mul _ _, s, u | .div _ _, s, u | .mod _ _, s, u => ∃ ra v, u = s.setReg ra v
  | .and _ _, s, u | .or _ _, s, u | .xor _ _, s, u | .shl _ _, s, u | .shr _ _, s, u => ∃ ra v, u = s.setReg ra v

/-- The two ways an instruction's transaction can end: with a fatal error (never StackImbalanceError, R127),
or with its effect and a written pc. -/
def TxSpec (i : Instr) (s : State) : Tx → Prop
  | .ok t => ∃ u p, Effect i s u ∧ t = u.setPc p
  | .error k => k ≠ .stackImbalanceError

theorem TxSpec.advance {i : Instr} {s u : State} (h : Effect i s u) (n : Nat) :
    TxSpec i s (advance n s u) := by
  rcases advance_cases n s u with ⟨-, e⟩ | ⟨-, e⟩ <;> rw [e]
  · exact ⟨u, _, h, rfl⟩
  · exact FatalKind.noConfusion

theorem TxSpec.onReg {i : Instr} {s : State} {k : Fin 8 → Tx} (h : ∀ ra, TxSpec i s (k ra)) (a : Byte) :
    TxSpec i s (onReg a k) := by
  rcases onReg_cases a k with ⟨ra, -, e⟩ | ⟨-, e⟩ <;> rw [e]
  · exact h ra
  · exact FatalKind.noConfusion

theorem TxSpec.onRegs {i : Instr} {s : State} {k : Fin 8 → Fin 8 → Tx}
    (h : ∀ ra rb, TxSpec i s (k ra rb)) (a b : Byte) : TxSpec i s (onRegs a b k) :=
  TxSpec.onReg (fun ra => TxSpec.onReg (h ra) b) a

theorem TxSpec.aluBinary {i : Instr} {s : State} (h : ∀ ra v, Effect i s (s.setReg ra v))
    (op : Byte → Byte → Byte) (a b : Byte) : TxSpec i s (aluBinary op a b s) :=
  TxSpec.onRegs (fun ra _ => TxSpec.advance (h ra _) 2) a b

theorem TxSpec.aluDivide {i : Instr} {s : State} (h : ∀ ra v, Effect i s (s.setReg ra v))
    (op : Byte → Byte → Byte) (a b : Byte) : TxSpec i s (aluDivide op a b s) :=
  TxSpec.onRegs (fun ra rb => by
    split
    · exact FatalKind.noConfusion
    · exact TxSpec.advance (h ra _) 2) a b

theorem TxSpec.aluUnary {i : Instr} {s : State} (h : ∀ ra v, Effect i s (s.setReg ra v))
    (op : Byte → Byte) (a : Byte) : TxSpec i s (aluUnary op a s) :=
  TxSpec.onReg (fun ra => TxSpec.advance (h ra _) 1) a

/-- An outcome that commits a transaction which ends in one of the two ways. -/
def CommitSpec (i : Instr) (s : State) (o : Host.Outcome State Fault Refusal) : Prop :=
  ∃ tx, o = commit s tx ∧ TxSpec i s tx

theorem CommitSpec.of {i : Instr} {s : State} {tx : Tx} (h : TxSpec i s tx) : CommitSpec i s (commit s tx) :=
  ⟨tx, rfl, h⟩

theorem CommitSpec.condJump {i : Instr} {s : State} (h : Effect i s s) (c : Bool) (a : Byte) :
    CommitSpec i s (condJump c a s) := by
  refine CommitSpec.of (TxSpec.onReg (fun ra => ?_) a)
  split
  · exact ⟨s, _, h, rfl⟩
  · exact TxSpec.advance h 1

/-- Every instruction commits one transaction, which ends in one of the two ways. -/
theorem exec_commit (i : Instr) (s : State) : CommitSpec i s (exec i s) := by
  cases i with
  | nop => exact CommitSpec.of (TxSpec.advance (by rfl) 0)
  | hlt => exact CommitSpec.of (tx := .ok (s.halt .normal)) ⟨_, _, rfl, (State.setPc_self _).symm⟩
  | ret => exact CommitSpec.of (tx := .ok _) ⟨s.popRest, _, rfl, rfl⟩
  | iret => exact CommitSpec.of (tx := .ok (interruptReturn s)) ⟨_, _, rfl, (State.setPc_self _).symm⟩
  | call a =>
    refine CommitSpec.of (TxSpec.onReg (fun ra => ?_) a)
    split
    · exact FatalKind.noConfusion
    · exact ⟨s.push _, _, ⟨_, rfl⟩, rfl⟩
  | int a =>
    refine CommitSpec.of (TxSpec.onReg (fun ra => ?_) a)
    split
    · exact FatalKind.noConfusion
    · exact TxSpec.advance (by exact ⟨_, rfl⟩) 1
  | jmp a => exact CommitSpec.of (TxSpec.onReg (fun _ => by exact ⟨s, _, rfl, rfl⟩) a)
  | jeq a => exact CommitSpec.condJump (by rfl) _ a
  | jne a => exact CommitSpec.condJump (by rfl) _ a
  | jgt a => exact CommitSpec.condJump (by rfl) _ a
  | jlt a => exact CommitSpec.condJump (by rfl) _ a
  | jle a => exact CommitSpec.condJump (by rfl) _ a
  | jge a => exact CommitSpec.condJump (by rfl) _ a
  | push a => exact CommitSpec.of (TxSpec.onReg (fun _ => TxSpec.advance (by exact ⟨_, rfl⟩) 1) a)
  | pop a => exact CommitSpec.of (TxSpec.onReg (fun _ => TxSpec.advance (by exact ⟨_, rfl⟩) 1) a)
  | prn a => exact CommitSpec.of (TxSpec.onReg (fun _ => TxSpec.advance (by exact ⟨_, rfl⟩) 1) a)
  | pra a => exact CommitSpec.of (TxSpec.onReg (fun _ => TxSpec.advance (by exact ⟨_, rfl⟩) 1) a)
  | inc a => exact CommitSpec.of (TxSpec.aluUnary (fun _ _ => by exact ⟨_, _, rfl⟩) _ a)
  | dec a => exact CommitSpec.of (TxSpec.aluUnary (fun _ _ => by exact ⟨_, _, rfl⟩) _ a)
  | not a => exact CommitSpec.of (TxSpec.aluUnary (fun _ _ => by exact ⟨_, _, rfl⟩) _ a)
  | ldi a imm => exact CommitSpec.of (TxSpec.onReg (fun _ => TxSpec.advance (by exact ⟨_, _, rfl⟩) 2) a)
  | ld a b => exact CommitSpec.of (TxSpec.onRegs (fun _ _ => TxSpec.advance (by exact ⟨_, _, rfl⟩) 2) a b)
  | st a b => exact CommitSpec.of (TxSpec.onRegs (fun _ _ => TxSpec.advance (by exact ⟨_, _, rfl⟩) 2) a b)
  | cmp a b => exact CommitSpec.of (TxSpec.onRegs (fun _ _ => TxSpec.advance (by exact ⟨_, rfl⟩) 2) a b)
  | div a b => exact CommitSpec.of (TxSpec.aluDivide (fun _ _ => by exact ⟨_, _, rfl⟩) _ a b)
  | mod a b => exact CommitSpec.of (TxSpec.aluDivide (fun _ _ => by exact ⟨_, _, rfl⟩) _ a b)
  | add a b => exact CommitSpec.of (TxSpec.aluBinary (fun _ _ => by exact ⟨_, _, rfl⟩) _ a b)
  | sub a b => exact CommitSpec.of (TxSpec.aluBinary (fun _ _ => by exact ⟨_, _, rfl⟩) _ a b)
  | mul a b => exact CommitSpec.of (TxSpec.aluBinary (fun _ _ => by exact ⟨_, _, rfl⟩) _ a b)
  | and a b => exact CommitSpec.of (TxSpec.aluBinary (fun _ _ => by exact ⟨_, _, rfl⟩) _ a b)
  | or a b => exact CommitSpec.of (TxSpec.aluBinary (fun _ _ => by exact ⟨_, _, rfl⟩) _ a b)
  | xor a b => exact CommitSpec.of (TxSpec.aluBinary (fun _ _ => by exact ⟨_, _, rfl⟩) _ a b)
  | shl a b => exact CommitSpec.of (TxSpec.aluBinary (fun _ _ => by exact ⟨_, _, rfl⟩) _ a b)
  | shr a b => exact CommitSpec.of (TxSpec.aluBinary (fun _ _ => by exact ⟨_, _, rfl⟩) _ a b)

/-- What the effect of an instruction leaves alone, field by field. -/
theorem Effect.frame {i : Instr} {s u : State} (h : Effect i s u) :
    u.im = s.im ∧ u.irqIn = s.irqIn ∧ ((∀ a b, i ≠ .cmp a b) → i ≠ .iret → u.fl = s.fl) ∧
      (∀ j : Nat, s.is.getLsbD j = true → u.is.getLsbD j = true) ∧ ((∀ a, i ≠ .int a) → u.is = s.is) ∧
      (i ≠ .iret → u.ic = s.ic) ∧ (i = .iret → u.ic = .normal) ∧
      ((∀ a, i ≠ .prn a ∧ i ≠ .pra a) → u.out = s.out) ∧ (∃ es, u.out = s.out ++ es ∧ es.length ≤ 1) ∧
      (i ≠ .hlt → u.rs = s.rs ∧ u.hr = s.hr) ∧ (i = .hlt → u.rs = .halted ∧ u.hr = .normal) := by
  cases i <;> simp only [Effect] at h
  case iret =>
    subst h
    obtain ⟨-, h2, h3, h4, h5, h6, h7, h8⟩ := interruptReturn_others s
    simp [h2, h3, h4, h5, h6, h7, h8]
  case int =>
    obtain ⟨v, rfl⟩ := h
    simp +contextual
  all_goals first
    | (subst h; simp)
    | (obtain ⟨_, rfl⟩ := h; simp [popReg])
    | (obtain ⟨_, _, rfl⟩ := h; simp)

/-- The effect of an instruction keeps memory in its canonical form. -/
theorem Effect.wf {i : Instr} {s u : State} (h : Effect i s u) (hw : s.mem.wf) : u.mem.wf := by
  cases i <;> simp only [Effect] at h
  case iret =>
    subst h
    rw [(interruptReturn_others s).1]
    exact hw
  all_goals first
    | (subst h; exact hw)
    | (obtain ⟨_, rfl⟩ := h; exact hw)
    | (obtain ⟨_, rfl⟩ := h; exact Memory.wf_store hw _ _)
    | (obtain ⟨_, _, rfl⟩ := h; exact hw)
    | (obtain ⟨_, _, rfl⟩ := h; exact Memory.wf_store hw _ _)

/-- IRET commits the return from an interrupt. -/
theorem exec_iret (s : State) : exec .iret s = .next (interruptReturn s) := rfl

/-- The inversion of `exec`: the next state is a fatal halt of the starting state, or the instruction's effect
with a written pc. -/
theorem exec_cases {i : Instr} {s t : State} (h : exec i s = .next t) :
    (∃ k, k ≠ .stackImbalanceError ∧ t = fatalHalt k s) ∨ ∃ u p, Effect i s u ∧ t = u.setPc p := by
  obtain ⟨tx, e, hs⟩ := exec_commit i s
  rw [e] at h
  rcases commit_cases h with rfl | ⟨k, rfl, rfl⟩
  · exact .inr hs
  · exact .inl ⟨k, hs, rfl⟩

end Sys2Proof.Machine
end

