-- ==== Sys2Proof/Laws/Step.lean ====
section
/-! SUPPORT. What one step can do, said once, and the fetch of the bytes at pc. -/

namespace Sys2Proof.Machine

/-! ### The kinds of step (R67) -/

theorem step_halted {s : State} (h : s.rs = .halted) : step s = .next s := by simp [step, h]

theorem step_running {s : State} (h : s.rs = .running) : step s = stepBoundary (sampleIrq s) := by
  simp [step, h]

theorem step_entry {s : State} {i : Fin 8} (h : s.rs = .running) (ha : acceptedLine (sampleIrq s) = some i) :
    step s = .next (interruptEntry i (sampleIrq s)) := by
  rw [step_running h, stepBoundary, ha]

theorem step_instr {s : State} (h : AtInstruction s) : step s = stepInstr (sampleIrq s) := by
  rw [step_running h.1, stepBoundary, h.2]

/-- Everything a step can be: nothing, an interrupt entry, a fetch that fails, or one instruction. -/
theorem step_cases (s : State) :
    (s.rs = .halted ∧ step s = .next s) ∨
    (s.rs = .running ∧ ∃ i, acceptedLine (sampleIrq s) = some i ∧
      step s = .next (interruptEntry i (sampleIrq s))) ∨
    (AtInstruction s ∧ ∃ k, fetchInstr (sampleIrq s) = .error k ∧
      step s = .next (fatalHalt k (sampleIrq s))) ∨
    (AtInstruction s ∧ ∃ i, fetchInstr (sampleIrq s) = .ok i ∧ step s = exec i (sampleIrq s)) := by
  cases hrs : s.rs with
  | halted => exact .inl ⟨rfl, step_halted hrs⟩
  | running =>
    cases ha : acceptedLine (sampleIrq s) with
    | some i => exact .inr (.inl ⟨rfl, i, rfl, step_entry hrs ha⟩)
    | none =>
      have hi : AtInstruction s := ⟨hrs, ha⟩
      cases hf : fetchInstr (sampleIrq s) with
      | error k => exact .inr (.inr (.inl ⟨hi, k, rfl, by simp only [step_instr hi, stepInstr, hf]⟩))
      | ok i => exact .inr (.inr (.inr ⟨hi, i, rfl, by simp only [step_instr hi, stepInstr, hf]⟩))

/-! ### Fetching (R70, R71) -/

/-- A fetch reads memory and pc only, and sampling writes neither (R55, R68). -/
theorem fetchInstr_congr {s t : State} (hm : t.mem = s.mem) (hp : t.pc = s.pc) :
    fetchInstr t = fetchInstr s := by simp [fetchInstr, fetchBytes, hm, hp]

theorem bytesFrom_succ {m : Memory} {a n : Nat} (h : a ≤ 0xFF) :
    bytesFrom m a (n + 1) = m.read a :: bytesFrom m (a + 1) n := by
  have : a ≤ Config.topAddr := h
  simp [bytesFrom, this]

theorem bytesFrom_past {m : Memory} {a n : Nat} (h : 0xFF < a) : bytesFrom m a n = [] := by
  cases n with
  | zero => rfl
  | succ n =>
    have : ¬ a ≤ Config.topAddr := Nat.not_le.mpr h
    simp [bytesFrom, this]

/-- A fetch has at least the opcode byte, since pc is an address (R70). -/
theorem fetchBytes_cons (s : State) :
    fetchBytes s = s.mem.read s.pc.toNat :: bytesFrom s.mem (s.pc.toNat + 1) 2 :=
  bytesFrom_succ (Nat.le_of_lt_succ s.pc.isLt)

/-- The bytes at pc are a prefix of what the fetch reads. -/
theorem bytesFrom_prefix (m : Memory) (bs : List Byte) :
    ∀ (a n : Nat), bs.length ≤ n → a + bs.length ≤ 256 →
      (∀ (k : Nat) (h : k < bs.length), m.read (a + k) = bs[k]) →
      bytesFrom m a n = bs ++ bytesFrom m (a + bs.length) (n - bs.length) := by
  induction bs with
  | nil => intro a n _ _ _; simp
  | cons b bs ih =>
    intro a n hn ha hb
    simp only [List.length_cons] at hn ha
    obtain ⟨n, rfl⟩ : ∃ n', n = n' + 1 := ⟨n - 1, by omega⟩
    have h0 : m.read a = b := hb 0 (Nat.succ_pos _)
    have hs : ∀ (k : Nat) (h : k < bs.length), m.read (a + 1 + k) = bs[k] := fun k hk => by
      have := hb (k + 1) (Nat.succ_lt_succ hk)
      rwa [← Nat.add_assoc, Nat.add_right_comm] at this
    rw [bytesFrom_succ (by omega), h0, ih (a + 1) n (by omega) (by omega) hs, List.length_cons,
      Nat.add_sub_add_right, Nat.add_right_comm, Nat.add_assoc, List.cons_append]

end Sys2Proof.Machine
end

