-- ==== Sys2Proof/Laws/HostPort.lean ====
section
/-! SUPPORT. The host's moves one at a time, and what the external timer adds to a draw of irq_in. -/

namespace Sys2Proof.Machine

/-! ### The host's moves (R156, R157) -/

theorem stepWith_running {s : State} (h : s.rs = .running) (irq : Byte) :
    stepWith irq s = step (s.setIrqIn (irq :: s.irqIn)) := by simp [stepWith, h]

theorem stepWith_halted {s : State} (h : s.rs = .halted) (irq : Byte) : stepWith irq s = .next s := by
  simp [stepWith, h, step_halted h]

@[simp] theorem hostRun_nil (s : State) : hostRun [] s = .next s := rfl

@[simp] theorem hostRun_writeIm (v : Byte) (ms : List HostMove) (s : State) :
    hostRun (.writeIm v :: ms) s = hostRun ms (hostWriteIm v s) := rfl

theorem hostRun_step {irq : Byte} {s t : State} (h : stepWith irq s = .next t) (ms : List HostMove) :
    hostRun (.step irq :: ms) s = hostRun ms t := by simp [hostRun, h]

/-- Sampling after a draw `irq` has been put on the port ORs it into IS and leaves the later draws (R68). -/
@[simp] theorem sampleIrq_draw (s : State) (irq : Byte) :
    sampleIrq (s.setIrqIn (irq :: s.irqIn)) = s.setIs (s.is ||| irq) := rfl

/-! ### The timer (R142) -/

theorem timerRequest_due {line : Fin 8} {period phase n : Nat} (hp : 0 < period)
    (h : n % period = phase % period) : timerRequest line period phase n = lineMask line.val :=
  if_pos ⟨hp, h⟩

theorem timerRequest_not_due {line : Fin 8} {period phase n : Nat} (h : n % period ≠ phase % period) :
    timerRequest line period phase n = 0#8 := if_neg fun hc => h hc.2

@[simp] theorem addTimer_nil (line : Fin 8) (period phase n : Nat) : addTimer line period phase n [] = [] := rfl

@[simp] theorem addTimer_writeIm (line : Fin 8) (period phase n : Nat) (v : Byte) (ms : List HostMove) :
    addTimer line period phase n (.writeIm v :: ms) = .writeIm v :: addTimer line period phase n ms := rfl

@[simp] theorem addTimer_step (line : Fin 8) (period phase n : Nat) (irq : Byte) (ms : List HostMove) :
    addTimer line period phase n (.step irq :: ms) =
      .step (irq ||| timerRequest line period phase n) :: addTimer line period phase (n + 1) ms := rfl

end Sys2Proof.Machine
end

