-- ==== Sys2Proof/Laws/Image.lean ====
section
/-! SUPPORT. Reading one line of a program image: the split at a comment, white space, and the value of a
binary literal. -/

namespace Sys2Proof.Machine

/-! ### The split at a comment -/

theorem beforeComment_no_hash (line : List Char) : ∀ c ∈ beforeComment line, c ≠ '#' := by
  induction line with
  | nil => simp [beforeComment]
  | cons c cs ih =>
    by_cases h : c = '#'
    · simp [beforeComment, h]
    · simpa [beforeComment, h] using ih

/-- A line is what stands before its comment, and then its end. -/
theorem beforeComment_split (line : List Char) : ∃ rest, LineEnd rest ∧ line = beforeComment line ++ rest := by
  induction line with
  | nil => exact ⟨[], .inl rfl, rfl⟩
  | cons c cs ih =>
    by_cases h : c = '#'
    · exact ⟨'#' :: cs, .inr ⟨cs, rfl⟩, by simp [beforeComment, h]⟩
    · obtain ⟨rest, hr, he⟩ := ih
      exact ⟨rest, hr, by rw [beforeComment, if_neg h, List.cons_append, ← he]⟩

/-- Characters without `#`, up to the end of the line, are what stands before its comment. -/
theorem beforeComment_append {cs rest : List Char} (h : ∀ c ∈ cs, c ≠ '#') (hr : LineEnd rest) :
    beforeComment (cs ++ rest) = cs := by
  induction cs with
  | nil => rcases hr with rfl | ⟨_, rfl⟩ <;> simp [beforeComment]
  | cons c cs ih =>
    have hc : c ≠ '#' := h c List.mem_cons_self
    rw [List.cons_append, beforeComment, if_neg hc, ih fun d hd => h d (List.mem_cons_of_mem _ hd)]

/-! ### White space -/

theorem all_isBlankChar_iff (cs : List Char) : cs.all isBlankChar = true ↔ WhiteSpace cs := by
  simp [List.all_eq_true, WhiteSpace, isBlankChar, or_assoc]

theorem WhiteSpace.no_hash {cs : List Char} (h : WhiteSpace cs) : ∀ c ∈ cs, c ≠ '#' := fun c hc => by
  rcases h c hc with rfl | rfl | rfl <;> decide

/-! ### Binary literals -/

theorem binaryDigit_some {c : Char} {d : Nat} (h : binaryDigit c = some d) :
    ∃ b : Bool, c = (if b then '1' else '0') ∧ d = b.toNat := by
  unfold binaryDigit at h
  split at h
  · next hc => exact ⟨false, hc, by simpa using h.symm⟩
  · split at h
    · next hc => exact ⟨true, hc, by simpa using h.symm⟩
    · cases h

/-- What has a value as binary digits is a list of the digits 0 and 1. -/
theorem binaryValue_some (cs : List Char) : ∀ {acc n : Nat}, binaryValue cs acc = some n →
    ∃ bits : List Bool, cs = bits.map (fun b => if b then '1' else '0') ∧
      n = bits.foldl (fun a b => 2 * a + b.toNat) acc := by
  induction cs with
  | nil => intro acc n h; exact ⟨[], rfl, by simpa [binaryValue] using h.symm⟩
  | cons c cs ih =>
    intro acc n h
    unfold binaryValue at h
    split at h
    · next d hd =>
      obtain ⟨b, rfl, rfl⟩ := binaryDigit_some hd
      obtain ⟨bits, rfl, rfl⟩ := ih h
      exact ⟨b :: bits, rfl, rfl⟩
    · cases h

/-- Eight binary digits are the literal of the byte of their value. -/
theorem binaryValue_eight {cs : List Char} {n : Nat} (hl : cs.length = 8) (h : binaryValue cs 0 = some n) :
    cs = literalDigits (BitVec.ofNat 8 n) := by
  obtain ⟨bits, rfl, rfl⟩ := binaryValue_some cs h
  rw [List.length_map] at hl
  match bits, hl with
  | [a, b, c, d, e, f, g, i], _ => cases a <;> cases b <;> revert c d e f g i <;> decide

theorem literalDigits_length (v : Byte) : (literalDigits v).length = 8 := rfl

theorem literalDigits_binary (v : Byte) : ∀ c ∈ literalDigits v, c = '0' ∨ c = '1' := fun c hc => by
  obtain ⟨k, -, rfl⟩ := List.mem_map.mp hc
  split <;> simp

theorem literalDigits_value (v : Byte) : binaryValue (literalDigits v) 0 = some v.toNat := by
  revert v; decide

end Sys2Proof.Machine
end

