-- ==== Sys2Proof/Laws/PerInstr.lean ====
section
/-! SUPPORT. Statements made per instruction: the fields of each opcode byte agree with the instruction it
stands for (spec/30_encoding.md R59, R62, R66). -/

namespace Sys2Proof.Laws

/-- The opcode byte of `i` carries the number of operand bytes in bits 7:6, the ALU marker in bit 5 and the
sets-PC marker in bit 4 (R59). -/
def OpcodeFields.Statement (i : Instr) : Prop :=
  ∃ b0 operands, encode i = b0 :: operands ∧ operandCountField b0 = operands.length ∧
    aluMarker b0 = i.isAlu ∧ setsPcMarker b0 = i.setsPc

theorem OpcodeFields.nop : OpcodeFields.Statement .nop :=
  ⟨_, _, rfl, by simp [operandCountField], by simp [aluMarker, Instr.isAlu], by simp [setsPcMarker, Instr.setsPc]⟩
theorem OpcodeFields.hlt : OpcodeFields.Statement .hlt :=
  ⟨_, _, rfl, by simp [operandCountField], by simp [aluMarker, Instr.isAlu], by simp [setsPcMarker, Instr.setsPc]⟩
theorem OpcodeFields.ret : OpcodeFields.Statement .ret :=
  ⟨_, _, rfl, by simp [operandCountField], by simp [aluMarker, Instr.isAlu], by simp [setsPcMarker, Instr.setsPc]⟩
theorem OpcodeFields.iret : OpcodeFields.Statement .iret :=
  ⟨_, _, rfl, by simp [operandCountField], by simp [aluMarker, Instr.isAlu], by simp [setsPcMarker, Instr.setsPc]⟩
theorem OpcodeFields.push (a : Byte) : OpcodeFields.Statement (.push a) :=
  ⟨_, _, rfl, by simp [operandCountField], by simp [aluMarker, Instr.isAlu], by simp [setsPcMarker, Instr.setsPc]⟩
theorem OpcodeFields.pop (a : Byte) : OpcodeFields.Statement (.pop a) :=
  ⟨_, _, rfl, by simp [operandCountField], by simp [aluMarker, Instr.isAlu], by simp [setsPcMarker, Instr.setsPc]⟩
theorem OpcodeFields.prn (a : Byte) : OpcodeFields.Statement (.prn a) :=
  ⟨_, _, rfl, by simp [operandCountField], by simp [aluMarker, Instr.isAlu], by simp [setsPcMarker, Instr.setsPc]⟩
theorem OpcodeFields.pra (a : Byte) : OpcodeFields.Statement (.pra a) :=
  ⟨_, _, rfl, by simp [operandCountField], by simp [aluMarker, Instr.isAlu], by simp [setsPcMarker, Instr.setsPc]⟩
theorem OpcodeFields.call (a : Byte) : OpcodeFields.Statement (.call a) :=
  ⟨_, _, rfl, by simp [operandCountField], by simp [aluMarker, Instr.isAlu], by simp [setsPcMarker, Instr.setsPc]⟩
theorem OpcodeFields.int (a : Byte) : OpcodeFields.Statement (.int a) :=
  ⟨_, _, rfl, by simp [operandCountField], by simp [aluMarker, Instr.isAlu], by simp [setsPcMarker, Instr.setsPc]⟩
theorem OpcodeFields.jmp (a : Byte) : OpcodeFields.Statement (.jmp a) :=
  ⟨_, _, rfl, by simp [operandCountField], by simp [aluMarker, Instr.isAlu], by simp [setsPcMarker, Instr.setsPc]⟩
theorem OpcodeFields.jeq (a : Byte) : OpcodeFields.Statement (.jeq a) :=
  ⟨_, _, rfl, by simp [operandCountField], by simp [aluMarker, Instr.isAlu], by simp [setsPcMarker, Instr.setsPc]⟩
theorem OpcodeFields.jne (a : Byte) : OpcodeFields.Statement (.jne a) :=
  ⟨_, _, rfl, by simp [operandCountField], by simp [aluMarker, Instr.isAlu], by simp [setsPcMarker, Instr.setsPc]⟩
theorem OpcodeFields.jgt (a : Byte) : OpcodeFields.Statement (.jgt a) :=
  ⟨_, _, rfl, by simp [operandCountField], by simp [aluMarker, Instr.isAlu], by simp [setsPcMarker, Instr.setsPc]⟩
theorem OpcodeFields.jlt (a : Byte) : OpcodeFields.Statement (.jlt a) :=
  ⟨_, _, rfl, by simp [operandCountField], by simp [aluMarker, Instr.isAlu], by simp [setsPcMarker, Instr.setsPc]⟩
theorem OpcodeFields.jle (a : Byte) : OpcodeFields.Statement (.jle a) :=
  ⟨_, _, rfl, by simp [operandCountField], by simp [aluMarker, Instr.isAlu], by simp [setsPcMarker, Instr.setsPc]⟩
theorem OpcodeFields.jge (a : Byte) : OpcodeFields.Statement (.jge a) :=
  ⟨_, _, rfl, by simp [operandCountField], by simp [aluMarker, Instr.isAlu], by simp [setsPcMarker, Instr.setsPc]⟩
theorem OpcodeFields.inc (a : Byte) : OpcodeFields.Statement (.inc a) :=
  ⟨_, _, rfl, by simp [operandCountField], by simp [aluMarker, Instr.isAlu], by simp [setsPcMarker, Instr.setsPc]⟩
theorem OpcodeFields.dec (a : Byte) : OpcodeFields.Statement (.dec a) :=
  ⟨_, _, rfl, by simp [operandCountField], by simp [aluMarker, Instr.isAlu], by simp [setsPcMarker, Instr.setsPc]⟩
theorem OpcodeFields.not (a : Byte) : OpcodeFields.Statement (.not a) :=
  ⟨_, _, rfl, by simp [operandCountField], by simp [aluMarker, Instr.isAlu], by simp [setsPcMarker, Instr.setsPc]⟩
theorem OpcodeFields.ldi (a imm : Byte) : OpcodeFields.Statement (.ldi a imm) :=
  ⟨_, _, rfl, by simp [operandCountField], by simp [aluMarker, Instr.isAlu], by simp [setsPcMarker, Instr.setsPc]⟩
theorem OpcodeFields.ld (a b : Byte) : OpcodeFields.Statement (.ld a b) :=
  ⟨_, _, rfl, by simp [operandCountField], by simp [aluMarker, Instr.isAlu], by simp [setsPcMarker, Instr.setsPc]⟩
theorem OpcodeFields.st (a b : Byte) : OpcodeFields.Statement (.st a b) :=
  ⟨_, _, rfl, by simp [operandCountField], by simp [aluMarker, Instr.isAlu], by simp [setsPcMarker, Instr.setsPc]⟩
theorem OpcodeFields.add (a b : Byte) : OpcodeFields.Statement (.add a b) :=
  ⟨_, _, rfl, by simp [operandCountField], by simp [aluMarker, Instr.isAlu], by simp [setsPcMarker, Instr.setsPc]⟩
theorem OpcodeFields.sub (a b : Byte) : OpcodeFields.Statement (.sub a b) :=
  ⟨_, _, rfl, by simp [operandCountField], by simp [aluMarker, Instr.isAlu], by simp [setsPcMarker, Instr.setsPc]⟩
theorem OpcodeFields.mul (a b : Byte) : OpcodeFields.Statement (.mul a b) :=
  ⟨_, _, rfl, by simp [operandCountField], by simp [aluMarker, Instr.isAlu], by simp [setsPcMarker, Instr.setsPc]⟩
theorem OpcodeFields.div (a b : Byte) : OpcodeFields.Statement (.div a b) :=
  ⟨_, _, rfl, by simp [operandCountField], by simp [aluMarker, Instr.isAlu], by simp [setsPcMarker, Instr.setsPc]⟩
theorem OpcodeFields.mod (a b : Byte) : OpcodeFields.Statement (.mod a b) :=
  ⟨_, _, rfl, by simp [operandCountField], by simp [aluMarker, Instr.isAlu], by simp [setsPcMarker, Instr.setsPc]⟩
theorem OpcodeFields.cmp (a b : Byte) : OpcodeFields.Statement (.cmp a b) :=
  ⟨_, _, rfl, by simp [operandCountField], by simp [aluMarker, Instr.isAlu], by simp [setsPcMarker, Instr.setsPc]⟩
theorem OpcodeFields.and (a b : Byte) : OpcodeFields.Statement (.and a b) :=
  ⟨_, _, rfl, by simp [operandCountField], by simp [aluMarker, Instr.isAlu], by simp [setsPcMarker, Instr.setsPc]⟩
theorem OpcodeFields.or (a b : Byte) : OpcodeFields.Statement (.or a b) :=
  ⟨_, _, rfl, by simp [operandCountField], by simp [aluMarker, Instr.isAlu], by simp [setsPcMarker, Instr.setsPc]⟩
theorem OpcodeFields.xor (a b : Byte) : OpcodeFields.Statement (.xor a b) :=
  ⟨_, _, rfl, by simp [operandCountField], by simp [aluMarker, Instr.isAlu], by simp [setsPcMarker, Instr.setsPc]⟩
theorem OpcodeFields.shl (a b : Byte) : OpcodeFields.Statement (.shl a b) :=
  ⟨_, _, rfl, by simp [operandCountField], by simp [aluMarker, Instr.isAlu], by simp [setsPcMarker, Instr.setsPc]⟩
theorem OpcodeFields.shr (a b : Byte) : OpcodeFields.Statement (.shr a b) :=
  ⟨_, _, rfl, by simp [operandCountField], by simp [aluMarker, Instr.isAlu], by simp [setsPcMarker, Instr.setsPc]⟩

end Sys2Proof.Laws
end

