-- ==== Sys2Proof/Tests/Slice0.lean ====
section
/-! SUPPORT. Tests. Expected results are those of spec/95_test_vectors.md (V<n>) and of the examples of the
rules (R<n>); the last part shows, for every obligation with hypotheses, a state that meets them. -/

namespace Sys2Proof.Tests

open Sys2Proof Sys2Proof.Machine

/-! ### Small states -/

/-- The reset state with `bytes` in memory from `p` upward and pc at `p`. -/
def progAt (p : Byte) (bytes : List Byte) : State :=
  { State.reset with pc := p, mem := Memory.writeBytes [] p.toNat bytes }

/-- The same state with one more byte of memory. -/
def poke (a v : Byte) (s : State) : State := s.store a v

/-- The state after one step. -/
def ran (s : State) : State :=
  match step s with
  | .next t => t
  | .fault _ | .refused _ => s

/-- R0 and R1 hold `a` and `b`, and the instruction `op 0 1` stands at pc = 6 (the ALU rows of V48 and V49). -/
def aluAt (op a b : Byte) : State := ((progAt 6 [op, 0, 1]).setReg 0 a).setReg 1 b

/-- A Running machine at 0x30 with R2 = 0x40, the flags `e`, `g`, `l`, and the bytes `op 02` at pc (V30). -/
def jumpAt (op : Byte) (e g l : Bool) : State := ((progAt 0x30 [op, 2]).setReg 2 0x40).setFl ⟨e, g, l⟩

/-- The state of V46 before the entry of line 5: program P4 after its INT. -/
def beforeEntry : State :=
  (((((poke 0xFD 0x11 (progAt 0x0E [0x47, 0])).setReg 0 5).setReg 1 0xFD).setReg 2 0x11).setIm 0x20).setIs 0x20

/-- Two lines, 1 and 3, pending and enabled, with their vectors installed (V42 after its sampling). -/
def twoPending : State :=
  ((poke 0xF9 0x40 (poke 0xFB 0x50 (progAt 0 [0x82, 0, 1, 1]))).setIm 0x0A).setIs 0x0A

/-! ### Well-formedness (R60) -/

/-- An ill-formed operand A is refused by the check. -/
theorem test_wf_operand_a : Instr.wellFormed (.push 8) = false ∧ Instr.wellFormed (.ldi 0x80 1) = false ∧
    Instr.wellFormed (.add 9 0) = false := by decide

/-- An ill-formed operand B is refused by the check. -/
theorem test_wf_operand_b : Instr.wellFormed (.add 0 9) = false ∧ Instr.wellFormed (.ld 7 8) = false :=
    by decide

/-- The immediate of LDI is no register operand. -/
theorem test_wf_accepts : Instr.wellFormed (.ldi 7 255) = true ∧ Instr.wellFormed (.shr 7 0) = true ∧
    Instr.wellFormed .nop = true := by decide

/-! ### Decoding, each word written out bit by bit from R62 -/

theorem test_decode_machine_control :
    decode [0b00000000#8] = .ok (.nop, []) ∧
    decode [0b00000001#8] = .ok (.hlt, []) := by
  refine ⟨rfl, rfl⟩

theorem test_decode_load_store_io :
    decode [0b10000010#8, 0b00000101#8, 0b11111111#8] = .ok (.ldi 5 255, []) ∧
    decode [0b10000011#8, 0b00000100#8, 0b00000011#8] = .ok (.ld 4 3, []) ∧
    decode [0b10000100#8, 0b00000100#8, 0b00000011#8] = .ok (.st 4 3, []) ∧
    decode [0b01000111#8, 0b00000110#8] = .ok (.prn 6, []) ∧
    decode [0b01001000#8, 0b00000110#8] = .ok (.pra 6, []) := by
  refine ⟨rfl, rfl, rfl, rfl, rfl⟩

theorem test_decode_stack :
    decode [0b01000101#8, 0b00000110#8] = .ok (.push 6, []) ∧
    decode [0b01000110#8, 0b00000110#8] = .ok (.pop 6, []) := by
  refine ⟨rfl, rfl⟩

theorem test_decode_control_transfer :
    decode [0b01010000#8, 0b00000110#8] = .ok (.call 6, []) ∧
    decode [0b00010001#8] = .ok (.ret, []) ∧
    decode [0b01010100#8, 0b00000110#8] = .ok (.jmp 6, []) ∧
    decode [0b01010101#8, 0b00000110#8] = .ok (.jeq 6, []) ∧
    decode [0b01010110#8, 0b00000110#8] = .ok (.jne 6, []) ∧
    decode [0b01010111#8, 0b00000110#8] = .ok (.jgt 6, []) ∧
    decode [0b01011000#8, 0b00000110#8] = .ok (.jlt 6, []) ∧
    decode [0b01011001#8, 0b00000110#8] = .ok (.jle 6, []) ∧
    decode [0b01011010#8, 0b00000110#8] = .ok (.jge 6, []) := by
  refine ⟨rfl, rfl, rfl, rfl, rfl, rfl, rfl, rfl, rfl⟩

theorem test_decode_interrupt :
    decode [0b01010010#8, 0b00000110#8] = .ok (.int 6, []) ∧
    decode [0b00010011#8] = .ok (.iret, []) := by
  refine ⟨rfl, rfl⟩

theorem test_decode_alu_arith :
    decode [0b10100000#8, 0b00000100#8, 0b00000011#8] = .ok (.add 4 3, []) ∧
    decode [0b10100001#8, 0b00000100#8, 0b00000011#8] = .ok (.sub 4 3, []) ∧
    decode [0b10100010#8, 0b00000100#8, 0b00000011#8] = .ok (.mul 4 3, []) ∧
    decode [0b10100011#8, 0b00000100#8, 0b00000011#8] = .ok (.div 4 3, []) ∧
    decode [0b10100100#8, 0b00000100#8, 0b00000011#8] = .ok (.mod 4 3, []) ∧
    decode [0b01100101#8, 0b00000110#8] = .ok (.inc 6, []) ∧
    decode [0b01100110#8, 0b00000110#8] = .ok (.dec 6, []) ∧
    decode [0b10100111#8, 0b00000100#8, 0b00000011#8] = .ok (.cmp 4 3, []) := by
  refine ⟨rfl, rfl, rfl, rfl, rfl, rfl, rfl, rfl⟩

theorem test_decode_alu_bits :
    decode [0b10101000#8, 0b00000100#8, 0b00000011#8] = .ok (.and 4 3, []) ∧
    decode [0b10101010#8, 0b00000100#8, 0b00000011#8] = .ok (.or 4 3, []) ∧
    decode [0b10101011#8, 0b00000100#8, 0b00000011#8] = .ok (.xor 4 3, []) ∧
    decode [0b01101001#8, 0b00000110#8] = .ok (.not 6, []) ∧
    decode [0b10101100#8, 0b00000100#8, 0b00000011#8] = .ok (.shl 4 3, []) ∧
    decode [0b10101101#8, 0b00000100#8, 0b00000011#8] = .ok (.shr 4 3, []) := by
  refine ⟨rfl, rfl, rfl, rfl, rfl, rfl⟩

/-- V53, V54, V55, R71. -/
theorem test_decode_rejects : decode [0xC0#8] = .error (.unsupported 0xC0) ∧ decode [0xA5#8, 0,
    1] = .error (.unsupported 0xA5) ∧
    decode [0x02#8] = .error (.unsupported 0x02) ∧ decode [0x45#8] = .error (.operandMissing 1) ∧
    decode [0x82#8, 0#8] = .error (.operandMissing 2) := by
  refine ⟨rfl, rfl, rfl, rfl, rfl⟩

/-- R59 and V57 (HLT 1 byte, JMP 2, LDI 3). -/
theorem test_opcode_fields : operandCountField 0x01 = 0 ∧ operandCountField 0x54 = 1 ∧
    operandCountField 0x82 = 2 ∧ aluMarker 0xA7 = true ∧
    setsPcMarker 0x52 = true ∧ setsPcMarker 0x01 = false := by decide

/-- Bit 0 of the table's word is the lowest bit of the first byte. -/
theorem test_table_word : decodeTableWord 24 0x030482 = some (.ldi 4 3) ∧
    decodeTableWord 8 0xFF45 = some (.push 0) ∧
    decodeTableWord 8 0xC0 = none := by
  refine ⟨rfl, rfl, rfl⟩

/-- V14: the instruction stored where `step` fetches is the first to run. -/
theorem test_fetch_word : (ran (State.reset.withFetchWord 24 0x080082)).getReg 0 = 8 ∧
    (ran (State.reset.withFetchWord 24 0x080082)).pc = 3 := by decide

/-! ### One step each -/

/-- V10. -/
theorem test_hlt : (ran (progAt 0x0B [0x01])).rs = .halted ∧ (ran (progAt 0x0B [0x01])).hr = .normal ∧
    (ran (progAt 0x0B [0x01])).pc = 0x0B := by decide

/-- V11. -/
theorem test_hlt_top : (ran (progAt 0xFF [0x01])).hr = .normal ∧ (ran (progAt 0xFF [0x01])).pc = 0xFF :=
    by decide

/-- V12. -/
theorem test_nop : (ran (progAt 0x10 [0x00])).pc = 0x11 := by decide

/-- V13. -/
theorem test_nop_top : (ran (progAt 0xFF [0x00])).hr = .fatal .addressError 0xFF ∧
    (ran (progAt 0xFF [0x00])).pc = 0xFF := by decide

/-- V1. -/
theorem test_ldi : (ran (progAt 0 [0x82, 3, 0xC8])).getReg 3 = 200 ∧ (ran (progAt 0 [0x82, 7,
    0x10])).sp = 0x10 := by decide

/-- V21, V22. -/
theorem test_ldi_seq : (ran (progAt 0xFD [0x82, 1, 5])).hr = .fatal .addressError 0xFD ∧
    (ran (progAt 0xFD [0x82, 1, 5])).getReg 1 = 0 ∧
    (ran (progAt 0xFE [0x82, 1])).hr = .fatal .addressError 0xFE := by decide

/-- V15. -/
theorem test_ld : (ran (poke 0x80 0x55 ((progAt 0 [0x83, 0, 1]).setReg 1 0x80))).getReg 0 = 0x55 := by decide

/-- V16. -/
theorem test_ld_same : (ran (poke 0x80 0x55 ((progAt 0 [0x83, 1, 1]).setReg 1 0x80))).getReg 1 = 0x55 :=
    by decide

/-- V17. -/
theorem test_st : (ran (((progAt 0 [0x84, 1, 2]).setReg 1 0xFD).setReg 2 0x11)).mem.read 0xFD = 0x11 :=
    by decide

/-- V18. -/
theorem test_st_same : (ran ((progAt 0 [0x84, 0, 0]).setReg 0 0x90)).mem.read 0x90 = 0x90 := by decide

/-- V19. -/
theorem test_prn : (ran ((progAt 0 [0x47, 0]).setReg 0 255)).out = [.dec 255] ∧
    renderEvent (.dec 255) = [.digit 2, .digit 5, .digit 5, .lineBreak] ∧
    renderEvent (.dec 0) = [.digit 0, .lineBreak] := by decide

/-- V20. -/
theorem test_pra : (ran ((progAt 0 [0x48, 0]).setReg 0 0x41)).out = [.chr 0x41] ∧
    renderEvent (.chr 0x41) = [.codePoint 0x41] := by decide

/-- V23, V51, V37. -/
theorem test_register_error : (ran (progAt 0 [0x82, 8, 1])).hr = .fatal .registerError 0 ∧
    (ran (progAt 0 [0xA0, 0, 9])).hr = .fatal .registerError 0 ∧
    (ran (progAt 0 [0x55, 9])).hr = .fatal .registerError 0 := by decide

/-- V24, V25. -/
theorem test_push : (ran ((progAt 0 [0x45, 0]).setReg 0 0x2A)).sp = 0xF3 ∧ (ran ((progAt 0 [0x45,
    0]).setReg 0 0x2A)).mem.read 0xF3 = 0x2A ∧
    (ran (progAt 0 [0x45, 7])).mem.read 0xF3 = 0xF4 := by decide

/-- V27. -/
theorem test_push_wraps : (ran (((progAt 6 [0x45, 0]).setReg 0 0x2A).setReg 7 0)).sp = 0xFF ∧
    (ran (((progAt 6 [0x45, 0]).setReg 0 0x2A).setReg 7 0)).mem.read 0xFF = 0x2A := by decide

/-- V28, V29. -/
theorem test_pop : (ran (poke 0xFF 0x33 ((progAt 0 [0x46, 0]).setReg 7 0xFF))).getReg 0 = 0x33 ∧
    (ran (poke 0xFF 0x33 ((progAt 0 [0x46, 0]).setReg 7 0xFF))).sp = 0x00 ∧ (ran (progAt 0 [0x46,
    0])).sp = 0xF5 := by decide

/-- V26. -/
theorem test_pop_sp : (ran (poke 0xF3 0x20 ((progAt 2 [0x46, 7]).setReg 7 0xF3))).sp = 0x20 := by decide

/-- V30: where each conditional jump at 0x30 goes. -/
def jumpRow (op : Byte) : List Byte :=
  [(ran (jumpAt op false false false)).pc, (ran (jumpAt op true false false)).pc,
   (ran (jumpAt op false true false)).pc, (ran (jumpAt op false false true)).pc]

/-- V30. -/
theorem test_jeq : jumpRow 0x55 = [0x32, 0x40, 0x32, 0x32] := by decide

/-- V30. -/
theorem test_jne : jumpRow 0x56 = [0x40, 0x32, 0x40, 0x40] := by decide

/-- V30. -/
theorem test_jgt : jumpRow 0x57 = [0x32, 0x32, 0x40, 0x32] := by decide

/-- V30. -/
theorem test_jlt : jumpRow 0x58 = [0x32, 0x32, 0x32, 0x40] := by decide

/-- V30. -/
theorem test_jle : jumpRow 0x59 = [0x32, 0x40, 0x32, 0x40] := by decide

/-- V30. -/
theorem test_jge : jumpRow 0x5A = [0x32, 0x40, 0x40, 0x32] := by decide

/-- V31, V35. -/
theorem test_jmp : (ran ((progAt 0 [0x54, 3]).setReg 3 0x0C)).pc = 0x0C ∧ (ran ((progAt 0xFE [0x54,
    1]).setReg 1 0x10)).pc = 0x10 := by decide

/-- V36. -/
theorem test_jeq_top : (ran (progAt 0xFE [0x55, 1])).hr = .fatal .addressError 0xFE ∧
    (ran (((progAt 0xFE [0x55, 1]).setReg 1 0x10).setFl ⟨true, false, false⟩)).pc = 0x10 := by decide

/-- V32. -/
theorem test_call : (ran ((progAt 9 [0x50, 1]).setReg 1 0x0E)).pc = 0x0E ∧ (ran ((progAt 9 [0x50,
    1]).setReg 1 0x0E)).sp = 0xF3 ∧
    (ran ((progAt 9 [0x50, 1]).setReg 1 0x0E)).mem.read 0xF3 = 0x0B := by decide

/-- V34, V38. -/
theorem test_call_corners : (ran (progAt 0xFE [0x50, 1])).hr = .fatal .addressError 0xFE ∧
    (ran (progAt 0xFE [0x50, 1])).sp = 0xF4 ∧
    (ran (progAt 0 [0x50, 7])).pc = 0xF4 ∧ (ran (progAt 0 [0x50, 7])).sp = 0xF3 := by decide

/-- V33. -/
theorem test_ret : (ran (poke 0xF3 0x0B ((progAt 0 [0x11]).setReg 7 0xF3))).pc = 0x0B ∧
    (ran (poke 0xF3 0x0B ((progAt 0 [0x11]).setReg 7 0xF3))).sp = 0xF4 := by decide

/-- V39. -/
theorem test_int : (ran (((progAt 0x0C [0x52, 0]).setReg 0 5).setIm 0x20)).is = 0x20 ∧
    (ran (((progAt 0x0C [0x52, 0]).setReg 0 5).setIm 0x20)).pc = 0x0E ∧
    (ran (((progAt 0x0C [0x52, 0]).setReg 0 5).setIm 0x20)).ic = .normal := by decide

/-- V40. -/
theorem test_int_above_seven : (ran ((progAt 0x0C [0x52,
    0]).setReg 0 8)).hr = .fatal .unsupportedOperationError 0x0C ∧
    (ran ((progAt 0x0C [0x52, 0]).setReg 0 8)).is = 0 := by decide

/-- V46, P4 step 6. -/
theorem test_entry_frame : [0xEB, 0xEC, 0xED, 0xEE, 0xEF, 0xF0, 0xF1, 0xF2,
    0xF3].map (ran beforeEntry).mem.read =
    [0x00, 0x00, 0x00, 0x00, 0x11, 0xFD, 0x05, 0x00, 0x0E] := by decide

/-- P4 step 6. -/
theorem test_entry_state : (ran beforeEntry).sp = 0xEB ∧ (ran beforeEntry).pc = 0x11 ∧
    (ran beforeEntry).is = 0 ∧ (ran beforeEntry).ic = .handling := by decide

/-- V42, step 0. -/
theorem test_priority : (ran twoPending).is = 0x08 ∧ (ran twoPending).pc = 0x40 ∧
    (ran twoPending).ic = .handling := by decide

/-- R104, P4 step 9: the handler's IRET stands at 0x11 here. -/
theorem test_iret_restores : (ran (poke 0x11 0x13 (ran beforeEntry))).pc = 0x0E ∧
    (ran (poke 0x11 0x13 (ran beforeEntry))).sp = 0xF4 ∧
    (ran (poke 0x11 0x13 (ran beforeEntry))).ic = .normal ∧
    ([0, 1, 2, 3, 4, 5, 6] : List (Fin 8)).map (ran (poke 0x11 0x13 (ran beforeEntry))).getReg = [0x05, 0xFD,
    0x11, 0, 0, 0, 0] := by decide

/-- V45. -/
theorem test_iret_normal : (ran (progAt 0 [0x13])).sp = 0xFD ∧ (ran (progAt 0 [0x13])).pc = 0 ∧
    (ran (progAt 0 [0x13])).ic = .normal := by decide

/-- V43, step 0. -/
theorem test_preempts_fatal : (ran ((poke 0xF8 0x30 ((progAt 0 [0xA5]).setIm 1)).setIrqIn [1])).pc = 0x30 ∧
    (ran ((poke 0xF8 0x30 ((progAt 0 [0xA5]).setIm 1)).setIrqIn [1])).sp = 0xEB := by decide

/-- V44. -/
theorem test_sampling_survives : (ran ((progAt 0 [0xA5]).setIrqIn [4])).hr = .fatal .unsupportedOperationError 0 ∧
    (ran ((progAt 0 [0xA5]).setIrqIn [4])).is = 4 := by decide

/-- V47. -/
theorem test_fl_byte : flByte ⟨false, false, true⟩ = 4 ∧ flByte ⟨false, true, false⟩ = 2 ∧ flByte ⟨true,
    false, false⟩ = 1 := by decide

/-! The ALU table of spec/95_test_vectors.md, V48 and V49. -/

theorem test_add : (ran (aluAt 0xA0 200 100)).getReg 0 = 44 ∧ (ran (aluAt 0xA0 255 1)).getReg 0 = 0 := by decide

theorem test_sub : (ran (aluAt 0xA1 3 5)).getReg 0 = 254 ∧ (ran (aluAt 0xA1 9 9)).getReg 0 = 0 := by decide

theorem test_mul : (ran (aluAt 0xA2 8 9)).getReg 0 = 72 ∧ (ran (aluAt 0xA2 16 16)).getReg 0 = 0 ∧
    (ran (aluAt 0xA2 255 255)).getReg 0 = 1 := by decide

theorem test_div : (ran (aluAt 0xA3 7 2)).getReg 0 = 3 ∧ (ran (aluAt 0xA3 0 5)).getReg 0 = 0 ∧
    (ran (aluAt 0xA3 255 1)).getReg 0 = 255 := by decide

theorem test_mod : (ran (aluAt 0xA4 5 7)).getReg 0 = 5 ∧ (ran (aluAt 0xA4 255 16)).getReg 0 = 15 ∧
    (ran (aluAt 0xA4 7 2)).getReg 0 = 1 := by decide

theorem test_and : (ran (aluAt 0xA8 240 60)).getReg 0 = 48 := by decide

theorem test_or : (ran (aluAt 0xAA 240 12)).getReg 0 = 252 := by decide

theorem test_xor : (ran (aluAt 0xAB 255 15)).getReg 0 = 240 := by decide

theorem test_shl : (ran (aluAt 0xAC 129 1)).getReg 0 = 2 ∧ (ran (aluAt 0xAC 1 8)).getReg 0 = 0 ∧
    (ran (aluAt 0xAC 5 0)).getReg 0 = 5 := by decide

theorem test_shr : (ran (aluAt 0xAD 129 1)).getReg 0 = 64 ∧ (ran (aluAt 0xAD 128 7)).getReg 0 = 1 ∧
    (ran (aluAt 0xAD 255 200)).getReg 0 = 0 := by decide

/-- The ALU table: pc = 9 and FL unchanged. -/
theorem test_alu_pc_fl : (ran (aluAt 0xA0 255 1)).pc = 9 ∧ (ran (aluAt 0xA0 255 1)).fl = ⟨false, false,
    false⟩ := by decide

/-- V48. -/
theorem test_cmp : (ran (aluAt 0xA7 3 5)).fl = ⟨false, false, true⟩ ∧ (ran (aluAt 0xA7 5 3)).fl = ⟨false,
    true, false⟩ ∧
    (ran (aluAt 0xA7 7 7)).fl = ⟨true, false, false⟩ ∧ (ran (aluAt 0xA7 0x80 1)).fl = ⟨false, true, false⟩ :=
    by decide

/-- V48. -/
theorem test_cmp_regs : (ran (aluAt 0xA7 3 5)).getReg 0 = 3 ∧ (ran (aluAt 0xA7 3 5)).getReg 1 = 5 := by decide

/-- V49. -/
theorem test_inc : (ran ((progAt 3 [0x65, 0]).setReg 0 255)).getReg 0 = 0 ∧ (ran ((progAt 3 [0x65,
    0]).setReg 0 5)).getReg 0 = 6 := by decide

/-- V49. -/
theorem test_dec : (ran ((progAt 3 [0x66, 0]).setReg 0 0)).getReg 0 = 0xFF := by decide

/-- V49. -/
theorem test_not : (ran ((progAt 3 [0x69, 0]).setReg 0 0x0F)).getReg 0 = 0xF0 ∧ (ran ((progAt 3 [0x69,
    0]).setReg 0 0)).getReg 0 = 0xFF := by decide

/-- V50, P5 step 3. -/
theorem test_div_zero : (ran (progAt 0 [0xA3, 0, 0])).hr = .fatal .divideByZeroError 0 ∧
    (ran (aluAt 0xA3 7 0)).getReg 0 = 7 := by decide

/-- V50. -/
theorem test_div_mod_same : (ran ((progAt 0 [0xA3, 0, 0]).setReg 0 9)).getReg 0 = 1 ∧ (ran ((progAt 0 [0xA4,
    0, 0]).setReg 0 9)).getReg 0 = 0 := by decide

/-- V52, V56. -/
theorem test_alu_top : (ran (progAt 0xFD [0xA0, 0, 1])).hr = .fatal .addressError 0xFD ∧
    (ran (progAt 0xFF [0x45])).hr = .fatal .addressError 0xFF := by decide

/-- V53, V54, V55; at 0xFF the opcode is judged before any operand byte (R64). -/
theorem test_unsupported : (ran (progAt 0 [0xA5, 0, 1])).hr = .fatal .unsupportedOperationError 0 ∧
    (ran (progAt 0 [0xC0])).hr = .fatal .unsupportedOperationError 0 ∧
    (ran (progAt 0 [0x02])).hr = .fatal .unsupportedOperationError 0 ∧
    (ran (progAt 0xFF [0xC0])).hr = .fatal .unsupportedOperationError 0xFF := by decide

/-- R122, P5. -/
theorem test_status_codes : statusCode (.fatal .divideByZeroError 6) = some 3 ∧ statusCode .normal = some 0 ∧
    statusCode .none = none := by decide

/-- The example line of R152, and malformed lines (R153). -/
theorem test_image_line : readImageLine "10000010 # LDI R0,8".toList = .byte 0x82 ∧
    readImageLine "  # only a comment".toList = .comment ∧
    readImageLine "1000001".toList = .malformed ∧ readImageLine "10000012".toList = .malformed := by decide

/-- R152: a bare literal, a tab, a comment right after the digits, a blank line (R153: one digit too many). -/
theorem test_image_line_forms : readImageLine "11111111".toList = .byte 0xFF ∧
    readImageLine "00000001\t#x".toList = .byte 1 ∧
    readImageLine "10000000#x".toList = .byte 0x80 ∧ readImageLine [] = .comment ∧
    readImageLine "#10000000".toList = .comment ∧
    readImageLine "10000000 1".toList = .malformed ∧ readImageLine "100000000".toList = .malformed := by decide

/-- R152: the k-th literal line supplies M[k]. -/
theorem test_image_order : readImage ["# P".toList, "10000010".toList, [], "00000000".toList,
    "00001000".toList] = some [0x82, 0, 8] := by decide

/-- R142: TIMER_LINE 3, TIMER_PERIOD 2, first due at step 1; the vector at 0xFB is 0. -/
theorem test_timer : (match timedRun 3 2 1 [.step 0, .step 0] (((progAt 0 [0,
    0]).setIm 0x08)) with | .next s => (s.ic, s.pc) | _ => (.normal, 1)) =
    (.handling, 0) ∧ timerRequest 3 2 1 0 = 0 ∧ timerRequest 3 2 1 1 = 0x08 := by decide

/-- R37: the image at 0x00 upward, IM from the host. -/
theorem test_launch : (launch [0x82, 0, 8] 0x20).map (fun s => (s.mem, s.im, s.sp)) = some ([(0, 0x82), (2,
    8)], 0x20, 0xF4) := by decide

/-- R157, R68: the host unmasks a line and the next draw raises it. -/
theorem test_host_moves : (match hostRun [.writeIm 0x20,
    .step 0x20] (progAt 0 [0x00]) with | .next s => s.ic | _ => .normal) = .handling := by decide

/-! ### Witnesses: for every obligation with hypotheses, a state that meets them -/

/-- A line whose first character can begin neither a blank line nor a literal. -/
theorem line_neither {c : Char} (cs : List Char) (h : c ≠ ' ' ∧ c ≠ '\t' ∧ c ≠ '\r' ∧
    c ≠ '#') (hd : c ≠ '0' ∧ c ≠ '1') :
    ¬ BlankLine (c :: cs) ∧ ∀ v : Byte, ¬ LiteralLine v (c :: cs) := by
  constructor
  · rintro ⟨b, r, hb, hr, he⟩
    cases b with
    | nil => rcases hr with rfl | ⟨_, rfl⟩ <;> simp_all
    | cons d b => have := hb d List.mem_cons_self; simp_all
  · rintro v ⟨b, r, -, -, he⟩
    rcases literalDigits_binary v c (by rw [literalDigits] at he ⊢; rw [List.map_cons] at he ⊢; exact (List.cons.inj he).1 ▸ List.mem_cons_self) with rfl | rfl <;> simp at hd

theorem long_image (n : Nat) : ImageBytes (List.replicate n (literalDigits 1)) (List.replicate n 1) := by
  induction n with
  | zero => exact .nil
  | succ n ih => exact .literal ⟨[], [], by simp [WhiteSpace], .inl rfl, by simp⟩ ih

theorem witness_DecodeAndEncodeAgree : ∃ (bs rest : List Byte) (i : Instr), decode bs = .ok (i, rest) :=
  ⟨[0x82, 7, 255, 9], [9], .ldi 7 255, rfl⟩

theorem witness_HaltedStepChangesNothing : ∃ s : State, s.rs = .halted :=
  ⟨State.reset.halt .normal, rfl⟩

/-- At the top of memory. -/
theorem witness_StepRunsDecodedInstruction : ∃ (s : State) (i : Instr) (rest : List Byte),
    AtInstruction s ∧ decode (fetchBytes (sampleIrq s)) = .ok (i, rest) :=
  ⟨progAt 0xFF [0x11], .ret, [], ⟨rfl, by decide⟩, rfl⟩

/-- An instruction whose last byte stands at 0xFF. -/
theorem witness_PlacedInstructionRuns : ∃ (s : State) (i : Instr), AtInstruction s ∧ BytesAtPc (encode i) s :=
  ⟨progAt 0xFD [0x82, 7, 255], .ldi 7 255, ⟨rfl, by decide⟩, by decide, by decide⟩

theorem witness_UnlistedOpcodeHalts : ∃ s : State, AtInstruction s ∧
    (s.mem.read s.pc.toNat).toNat ∉ listedOpcodes :=
  ⟨progAt 0xFF [0xC0], ⟨rfl, by decide⟩, by decide⟩

/-- V22. -/
theorem witness_OperandFetchPastTopHalts : ∃ (s : State) (i : Instr), AtInstruction s ∧
    (encode i).head? = some (s.mem.read s.pc.toNat) ∧
    256 < s.pc.toNat + (encode i).length :=
  ⟨progAt 0xFE [0x82, 1], .ldi 0 0, ⟨rfl, by decide⟩, by decide, by decide⟩

/-- Operand A, operand B. -/
theorem witness_BadRegisterOperandHalts : ∃ i j : Instr, i.wellFormed = false ∧ j.wellFormed = false :=
  ⟨.jeq 8, .add 7 8, by decide, by decide⟩

theorem witness_ZeroDivisorHalts : ∃ (s : State) (a b : Byte) (ra rb : Fin 8), NamesReg a ra ∧
    NamesReg b rb ∧ s.getReg rb = 0#8 :=
  ⟨State.reset, 0, 1, 0, 1, rfl, rfl, by decide⟩

theorem witness_IntLineAboveSevenHalts : ∃ (s : State) (a : Byte) (ra : Fin 8), NamesReg a ra ∧
    7 < (s.getReg ra).toNat :=
  ⟨State.reset.setReg 0 8, 0, 0, rfl, by decide⟩

/-- ADD at 0xFD, an untaken JEQ at 0xFE. -/
theorem witness_NextPcPastTopHalts : ∃ (s t : State) (i j : Instr), (i.wellFormed = true ∧ NeedsSeq i s ∧
    0xFF < s.pc.toNat + (encode i).length) ∧
    j.wellFormed = true ∧ NeedsSeq j t ∧ 0xFF < t.pc.toNat + (encode j).length :=
  ⟨progAt 0xFD [], progAt 0xFE [], .add 0 1, .jeq 7, ⟨by decide, trivial, by decide⟩, by decide, rfl, by decide⟩

theorem witness_FatalErrorCommitsNothing : ∃ (s t : State) (k : FatalKind) (p : Byte), s.rs = .running ∧
    s.hr = .none ∧
    step s = .next t ∧ t.hr = .fatal k p :=
  ⟨progAt 0 [0xA5], _, .unsupportedOperationError, 0, rfl, rfl, rfl, rfl⟩

/-- FatalErrorCommitsNothing: each of the four kinds occurs. -/
theorem witness_fatal_kinds : [progAt 0xFF [0x00], progAt 0 [0x45, 8], progAt 0 [0xA3, 0, 0],
    progAt 0 [0xC0]].map (fun s => statusCode (ran s).hr) =
    [some 1, some 2, some 3, some 4] :=
  by decide

theorem witness_SamplingOrsTheDraw : ∃ (s : State) (d : Byte) (ds : List Byte), s.irqIn = d :: ds :=
  ⟨State.reset.setIrqIn [0xFF], 0xFF, [], rfl⟩

theorem witness_AcceptedExactlyWhenNormalAndPending : ∃ s t : State, s.rs = .running ∧ s.ic = .normal ∧
    (sampleIrq s).is &&& s.im ≠ 0#8 ∧ t.rs = .halted :=
  ⟨twoPending, State.reset.halt .normal, rfl, rfl, by decide, rfl⟩

theorem witness_LowestLineIsTaken : ∃ (s : State) (i : Fin 8), s.rs = .running ∧ s.ic = .normal ∧
    (sampleIrq s).is.getLsbD i = true ∧
    s.im.getLsbD i = true ∧ ∀ j : Fin 8, j < i → ¬ ((sampleIrq s).is.getLsbD j = true ∧
    s.im.getLsbD j = true) :=
  ⟨twoPending, 1, rfl, rfl, by decide, by decide, by decide⟩

/-- A frame that wraps around the bottom of memory. -/
theorem witness_InterruptEntryBuildsFrame : ∃ (s : State) (i : Fin 8), s.rs = .running ∧
    acceptedLine (sampleIrq s) = some i ∧ s.sp = 4 :=
  ⟨twoPending.setReg 7 4, 1, rfl, by decide, by decide⟩

theorem witness_HandlingHoldsEveryLine : ∃ s t : State, s.rs = .running ∧ s.ic = .handling ∧
    step s = .next t ∧ (sampleIrq s).is = 0x0A :=
  ⟨twoPending.setIc .handling, _, rfl, rfl, rfl, by decide⟩

/-- The handler of P4 changes R0. -/
theorem witness_InterruptRoundTripRestores : ∃ (s t u : State) (i : Fin 8), s.rs = .running ∧
    acceptedLine (sampleIrq s) = some i ∧ step s = .next t ∧
    u.sp = t.sp ∧ (∀ k : Nat,
    k < 9 → u.mem.read (t.sp + BitVec.ofNat 8 k).toNat = t.mem.read (t.sp + BitVec.ofNat 8 k).toNat) ∧
    u.getReg 0 ≠ t.getReg 0 :=
  ⟨beforeEntry, ran beforeEntry, (ran beforeEntry).setReg 0 0x41, 5, rfl, by decide, rfl, by decide,
    fun _ _ => rfl, by decide⟩

theorem witness_IntIsTakenAtTheNextStep : ∃ (s t : State) (a : Byte) (ra line : Fin 8), s.rs = .running ∧
    s.ic = .normal ∧ s.irqIn = [] ∧ NamesReg a ra ∧
    (s.getReg ra).toNat = line.val ∧ s.pc.toNat + 2 ≤ 0xFF ∧ s.im.getLsbD line = true ∧
    (∀ j : Fin 8, j < line → ¬ (s.is.getLsbD j = true ∧ s.im.getLsbD j = true)) ∧ exec (.int a) s = .next t :=
  ⟨((progAt 0xFD [0x52, 0]).setReg 0 7).setIm 0x80, _, 0, 0, 7, rfl, rfl, rfl, rfl, by decide, by decide,
    by decide, by decide, rfl⟩

/-- V41, then the host unmasks line 3. -/
theorem witness_UnmaskedPendingLineIsTaken : ∃ (s : State) (v : Byte) (i : Fin 8), s.rs = .running ∧
    s.ic = .normal ∧ s.irqIn = [] ∧
    s.is.getLsbD i = true ∧ s.im.getLsbD i = false ∧ v.getLsbD i = true ∧
    ∀ j : Fin 8, j < i → ¬ (s.is.getLsbD j = true ∧ v.getLsbD j = true) :=
  ⟨State.reset.setIs 0x08, 0x08, 3, rfl, rfl, rfl, by decide, by decide, by decide, by decide⟩

theorem witness_NopOnlyAdvances : ∃ s t : State, s.pc.toNat < 0xFF ∧ t.pc.toNat = 0xFF :=
  ⟨progAt 0xFE [], progAt 0xFF [], by decide, by decide⟩

theorem witness_LdiLoadsTheImmediate : ∃ (s : State) (a : Byte) (ra : Fin 8), NamesReg a ra ∧
    s.pc.toNat + 3 ≤ 0xFF :=
  ⟨progAt 0xFC [], 7, 7, rfl, by decide⟩

theorem witness_LdLoadsTheByte : ∃ (s : State) (a b : Byte) (ra rb : Fin 8), NamesReg a ra ∧ NamesReg b rb ∧
    s.pc.toNat + 3 ≤ 0xFF :=
  ⟨progAt 0xFC [], 7, 7, 7, 7, rfl, rfl, by decide⟩

theorem witness_StStoresTheByte : ∃ (s : State) (a b : Byte) (ra rb : Fin 8), NamesReg a ra ∧ NamesReg b rb ∧
    s.pc.toNat + 3 ≤ 0xFF :=
  ⟨progAt 0xFC [], 7, 7, 7, 7, rfl, rfl, by decide⟩

theorem witness_AddSubMulWrap : ∃ (s : State) (a b : Byte) (ra rb : Fin 8), NamesReg a ra ∧ NamesReg b rb ∧
    s.pc.toNat + 3 ≤ 0xFF :=
  ⟨progAt 0xFC [], 0, 7, 0, 7, rfl, rfl, by decide⟩

theorem witness_AndOrXorAreBitwise : ∃ (s : State) (a b : Byte) (ra rb : Fin 8), NamesReg a ra ∧
    NamesReg b rb ∧ s.pc.toNat + 3 ≤ 0xFF :=
  ⟨progAt 0xFC [], 7, 7, 7, 7, rfl, rfl, by decide⟩

theorem witness_CmpSetsExactlyOneFlag : ∃ (s : State) (a b : Byte) (ra rb : Fin 8), NamesReg a ra ∧
    NamesReg b rb ∧ s.pc.toNat + 3 ≤ 0xFF :=
  ⟨progAt 0xFC [], 7, 7, 7, 7, rfl, rfl, by decide⟩

/-- At the amount 8, where the result becomes 0. -/
theorem witness_ShiftsUseTheWholeAmount : ∃ (s : State) (a b : Byte) (ra rb : Fin 8), NamesReg a ra ∧
    NamesReg b rb ∧ s.pc.toNat + 3 ≤ 0xFF ∧
    8 ≤ (s.getReg rb).toNat :=
  ⟨(progAt 0xFC []).setReg 1 8, 0, 1, 0, 1, rfl, rfl, by decide, by decide⟩

theorem witness_DivModAreUnsigned : ∃ (s : State) (a b : Byte) (ra rb : Fin 8), NamesReg a ra ∧
    NamesReg b rb ∧ s.getReg rb ≠ 0#8 ∧ s.pc.toNat + 3 ≤ 0xFF :=
  ⟨(progAt 0xFC []).setReg 1 1, 0, 1, 0, 1, rfl, rfl, by decide, by decide⟩

theorem witness_PrnAndPraAppendOneEvent : ∃ (s : State) (a : Byte) (ra : Fin 8), NamesReg a ra ∧
    s.pc.toNat + 2 ≤ 0xFF :=
  ⟨progAt 0xFD [], 7, 7, rfl, by decide⟩

theorem witness_PushStoresTheRegister : ∃ (s : State) (a : Byte) (ra : Fin 8), NamesReg a ra ∧
    s.pc.toNat + 2 ≤ 0xFF :=
  ⟨progAt 0xFD [], 7, 7, rfl, by decide⟩

theorem witness_CallPushesTheReturnAddress : ∃ (s : State) (a : Byte) (ra : Fin 8), NamesReg a ra ∧
    s.pc.toNat + 2 ≤ 0xFF :=
  ⟨progAt 0xFD [], 7, 7, rfl, by decide⟩

theorem witness_IncDecNotResults : ∃ (s : State) (a : Byte) (ra : Fin 8), NamesReg a ra ∧
    s.pc.toNat + 2 ≤ 0xFF :=
  ⟨progAt 0xFD [], 7, 7, rfl, by decide⟩

theorem witness_PopLoadsTheRegister : ∃ (s : State) (a : Byte) (ra : Fin 8), NamesReg a ra ∧
    s.pc.toNat + 2 ≤ 0xFF ∧ ra ≠ 7 :=
  ⟨progAt 0xFD [], 6, 6, rfl, by decide, by decide⟩

/-- POP R7. -/
theorem witness_PopLoadsTheRegister_sp : ∃ (s : State) (a : Byte) (ra : Fin 8), NamesReg a ra ∧
    s.pc.toNat + 2 ≤ 0xFF :=
  ⟨progAt 0xFD [], 7, 7, rfl, by decide⟩

theorem witness_PushThenPopRestores : ∃ (s : State) (a : Byte) (ra : Fin 8), NamesReg a ra ∧
    s.pc.toNat + 4 ≤ 0xFF :=
  ⟨progAt 0xFB [], 7, 7, rfl, by decide⟩

theorem witness_CallThenRetReturns : ∃ (s t u : State) (a : Byte) (ra : Fin 8), NamesReg a ra ∧
    s.pc.toNat + 2 ≤ 0xFF ∧ exec (.call a) s = .next t ∧
    u.sp = t.sp ∧ u.mem.read t.sp.toNat = t.mem.read t.sp.toNat :=
  ⟨progAt 9 [], _, _, 1, 1, rfl, by decide, rfl, rfl, rfl⟩

theorem witness_JmpSetsPc : ∃ (a : Byte) (ra : Fin 8), NamesReg a ra :=
  ⟨7, 7, rfl⟩

/-- Each condition holds in one of the two states and fails in the other. -/
theorem witness_ConditionalJumpsFollowTheFlags : ∃ (s t : State) (a : Byte) (ra : Fin 8), NamesReg a ra ∧
    (s.fl.e = true ∧ s.fl.g = true ∧ s.fl.l = true) ∧
    (t.fl.e = false ∧ t.fl.g = false ∧ t.fl.l = false) ∧ t.pc.toNat + 2 ≤ 0xFF :=
  ⟨State.reset.setFl ⟨true, true, true⟩, progAt 0xFD [], 7, 7, rfl, ⟨rfl, rfl, rfl⟩, ⟨rfl, rfl, rfl⟩, by decide⟩

theorem witness_IntSetsThePendingBit : ∃ (s : State) (a : Byte) (ra : Fin 8), NamesReg a ra ∧
    (s.getReg ra).toNat ≤ 7 ∧ s.pc.toNat + 2 ≤ 0xFF :=
  ⟨(progAt 0xFD []).setReg 0 7, 0, 0, rfl, by decide, by decide⟩

theorem witness_AddThenSubReturns : ∃ (s : State) (a b : Byte) (ra rb : Fin 8), NamesReg a ra ∧
    NamesReg b rb ∧ ra ≠ rb ∧ s.pc.toNat + 6 ≤ 0xFF :=
  ⟨progAt 0xF9 [], 0, 1, 0, 1, rfl, rfl, by decide, by decide⟩

/-- The longest image. -/
theorem witness_LaunchGivesTheResetTable : ∃ image : List Byte, image.length ≤ 256 ∧ image.length = 256 :=
  ⟨List.replicate 256 1#8, List.length_replicate.le, List.length_replicate⟩

theorem witness_ImageTextIsRead : ∃ (text : List (List Char)) (bs : List Byte), ImageBytes text bs ∧
    bs.length ≤ 256 :=
  ⟨["10000010 # LDI R0,8".toList, " #".toList], [0x82],
    .literal ⟨[' '], "# LDI R0,8".toList, by simp [WhiteSpace], .inr ⟨_, rfl⟩, rfl⟩
      (.blank ⟨[' '], ['#'], by simp [WhiteSpace], .inr ⟨[], rfl⟩, rfl⟩ .nil), by decide⟩

theorem witness_ImageTextIsRead_malformed : ∃ text : List (List Char), ∃ line ∈ text, ¬ BlankLine line ∧
    ∀ v : Byte, ¬ LiteralLine v line :=
  ⟨["2".toList], _, List.mem_singleton.mpr rfl, (line_neither _ (by decide) (by decide))⟩

theorem witness_ImageTextIsRead_long : ∃ (text : List (List Char)) (bs : List Byte), ImageBytes text bs ∧
    256 < bs.length :=
  ⟨List.replicate 257 (literalDigits 1), List.replicate 257 1, long_image 257,
    by rw [List.length_replicate]; decide⟩

theorem witness_ReadAfterWrite : ∃ a b c : Nat, c ≠ a ∧ c ≠ b :=
  ⟨0, 1, 255, by decide, by decide⟩

theorem witness_EveryStepKeepsTheInvariant : ∃ s t : State, Inv s ∧ step s = .next t :=
  ⟨State.reset, _, ⟨by decide, ⟨by decide, fun _ _ h => HaltRecord.noConfusion h⟩⟩, rfl⟩

theorem witness_NoInstructionReadsOrWritesIm : ∃ s t : State, step s = .next t :=
  ⟨twoPending, _, rfl⟩

theorem witness_OnlyCmpAndIretWriteFlags : ∃ (i : Instr) (s t : State), exec i s = .next t ∧ (∀ a b,
    i ≠ .cmp a b) ∧ i ≠ .iret :=
  ⟨.nop, State.reset, _, rfl, fun _ _ h => Instr.noConfusion h, fun h => Instr.noConfusion h⟩

theorem witness_OnlyIntWritesPendingBits : ∃ (i : Instr) (s t : State), exec i s = .next t ∧
    s.is.getLsbD 3 = true ∧ ∀ a, i ≠ .int a :=
  ⟨.iret, State.reset.setIs 0x08, _, rfl, by decide, fun _ h => Instr.noConfusion h⟩

theorem witness_OnlyEntryAndIretWriteController : ∃ (s t : State) (i : Instr) (u v : State),
    (step s = .next t ∧ s.ic = .normal ∧ t.ic = .handling) ∧
    exec .iret u = .next v ∧ i ≠ .iret :=
  ⟨twoPending, _, .ret, State.reset, _, ⟨rfl, rfl, rfl⟩, rfl, fun h => Instr.noConfusion h⟩

theorem witness_OnlyEntryAndIretWriteController_iret : ∃ s t : State, step s = .next t ∧ s.ic = .handling ∧
    t.ic = .normal :=
  ⟨(progAt 0 [0x13]).setIc .handling, _, rfl, rfl, rfl⟩

theorem witness_OutputOnlyGrows : ∃ (i : Instr) (s t : State), exec i s = .next t ∧ ∀ a, i ≠ .prn a ∧
    i ≠ .pra a :=
  ⟨.nop, State.reset, _, rfl, fun _ => ⟨fun h => Instr.noConfusion h, fun h => Instr.noConfusion h⟩⟩

theorem witness_HaltedOnlyByHltOrFatalError : ∃ (i j : Instr) (s t u : State), s.rs = .running ∧
    (exec i s = .next t ∧ t.rs = .halted ∧ t.hr = .normal) ∧
    exec j s = .next u ∧ u.rs = .halted ∧ u.hr = .fatal .divideByZeroError s.pc :=
  ⟨.hlt, .div 0 1, State.reset, _, _, rfl, ⟨rfl, rfl, rfl⟩, rfl, rfl, rfl⟩

theorem witness_HaltedOnlyByHltOrFatalError_step : ∃ s t u v : State, (s.rs = .running ∧ step s = .next t ∧
    t.rs = .halted ∧ t.hr = .normal) ∧
    u.rs = .running ∧ step u = .next v ∧ v.rs = .halted ∧ v.hr = .fatal .unsupportedOperationError 0 :=
  ⟨progAt 0xFF [0x01], _, progAt 0 [0xA5], _, ⟨rfl, rfl, rfl, rfl⟩, rfl, rfl, rfl, rfl⟩

theorem witness_TimerInterruptsAtItsPeriod : ∃ (line : Fin 8) (period phase n : Nat) (irq : Byte) (s : State), 0 < period ∧ n % period = phase % period ∧
    (n + 1) % period ≠ phase % period ∧ s.rs = .running ∧ s.ic = .normal ∧ s.im.getLsbD line = true ∧
    ∀ j : Fin 8, j < line → ¬ ((s.is ||| irq).getLsbD j = true ∧ s.im.getLsbD j = true) :=
  ⟨7, 2, 1, 3, 0x40, State.reset.setIm 0x80, by decide, by decide, by decide, rfl, rfl, by decide, by decide⟩

end Sys2Proof.Tests
end

/-! ## Fatal halts and the address after an instruction (spec/60_exceptions.md R123, R129) -/

namespace Sys2Proof.Machine

/-- The fatal halt changes RS and HR and nothing else (R129). -/
theorem haltedBy_fatalHalt (k : FatalKind) (s : State) : HaltedBy k s (fatalHalt k s) :=
  ⟨rfl, rfl, rfl, fun _ _ => rfl, rfl, ⟨rfl, rfl, rfl, rfl⟩, rfl, rfl⟩

/-- Committing a transaction that has raised `k` halts the machine by `k` (R12, R129). -/
theorem commit_halts {s : State} {tx : Tx} {k : FatalKind} (h : tx = .error k) :
    ∃ t, commit s tx = .next t ∧ HaltedBy k s t :=
  ⟨fatalHalt k s, by rw [h]; rfl, haltedBy_fatalHalt k s⟩

/-- A register index names a register (R60). -/
theorem isRegIndex_names {a : Byte} (h : isRegIndex a = true) : ∃ ra : Fin 8, a.toNat = ra.val :=
  ⟨⟨a.toNat, (isRegIndex_iff a).mp h⟩, rfl⟩

theorem operandValue_of_names {a : Byte} {ra : Fin 8} (h : a.toNat = ra.val) (s : State) :
    operandValue s a = s.getReg ra := by
  simp [operandValue, h]

/-- A valid register operand raises what its rule raises on the register it names. -/
theorem onReg_raises {a : Byte} {k : Fin 8 → Tx} {e : FatalKind} (hw : [a].all isRegIndex = true)
    (h : ∀ ra : Fin 8, a.toNat = ra.val → k ra = .error e) : onReg a k = .error e := by
  obtain ⟨ra, ha⟩ := isRegIndex_names (List.all_eq_true.mp hw a (by simp))
  rw [onReg_of_toNat ha, h ra ha]

/-- Two valid register operands raise what their rule raises on the registers they name. -/
theorem onRegs_raises {a b : Byte} {k : Fin 8 → Fin 8 → Tx} {e : FatalKind}
    (hw : [a, b].all isRegIndex = true)
    (h : ∀ ra rb : Fin 8, a.toNat = ra.val → b.toNat = rb.val → k ra rb = .error e) :
    onRegs a b k = .error e := by
  obtain ⟨ra, ha⟩ := isRegIndex_names (List.all_eq_true.mp hw a (by simp))
  obtain ⟨rb, hb⟩ := isRegIndex_names (List.all_eq_true.mp hw b (by simp))
  rw [onRegs_of_toNat ha hb, h ra rb ha hb]

section PastTop

variable {s : State} {n : Nat} {a b : Byte}

/-- An advance over `n + 1` bytes that passes 0xFF raises AddressError (R72, R123 (b)). -/
theorem advance_past (hp : 0xFF < s.pc.toNat + (n + 1)) (t : State) :
    advance n s t = .error .addressError :=
  advance_error (by omega) t

theorem onReg_advance_past (hw : [a].all isRegIndex = true) (hp : 0xFF < s.pc.toNat + (n + 1))
    (u : Fin 8 → State) : onReg a (fun ra => advance n s (u ra)) = .error .addressError :=
  onReg_raises hw fun ra _ => advance_past hp (u ra)

theorem onRegs_advance_past (hw : [a, b].all isRegIndex = true) (hp : 0xFF < s.pc.toNat + (n + 1))
    (u : Fin 8 → Fin 8 → State) :
    onRegs a b (fun ra rb => advance n s (u ra rb)) = .error .addressError :=
  onRegs_raises hw fun ra rb _ _ => advance_past hp (u ra rb)

/-- DIV and MOD past their own condition, a divisor that is not 0 (R109, R110, R130). -/
theorem aluDivide_past (hw : [a, b].all isRegIndex = true) (hd : operandValue s b ≠ 0#8)
    (hp : 0xFF < s.pc.toNat + 3) (op : Byte → Byte → Byte) :
    aluDivide op a b s = .error .addressError := by
  refine onRegs_raises hw fun ra rb _ hb => ?_
  rw [operandValue_of_names hb] at hd
  rw [if_neg hd, advance_past hp]

/-- INT past its own condition, a line number of at most 7 (R103, R130). -/
theorem exec_int_past (hw : [a].all isRegIndex = true) (hv : (operandValue s a).toNat ≤ 7)
    (hp : 0xFF < s.pc.toNat + 2) : ∃ t, exec (.int a) s = .next t ∧ HaltedBy .addressError s t := by
  refine commit_halts (onReg_raises hw fun ra ha => ?_)
  rw [operandValue_of_names ha] at hv
  rw [if_neg (Nat.not_lt.mpr hv), advance_past hp]

/-- CALL's return address must fit in a byte (R91, R123 (c)). -/
theorem exec_call_past (hw : [a].all isRegIndex = true) (hp : 0xFF < s.pc.toNat + 2) :
    ∃ t, exec (.call a) s = .next t ∧ HaltedBy .addressError s t :=
  commit_halts (onReg_raises hw fun _ _ => if_pos hp)

/-- A conditional jump that is not taken advances (R94). -/
theorem condJump_past {c : Bool} (hc : c = false) (hw : [a].all isRegIndex = true)
    (hp : 0xFF < s.pc.toNat + 2) :
    ∃ t, condJump c a s = .next t ∧ HaltedBy .addressError s t := by
  subst hc
  exact commit_halts (onReg_advance_past hw hp fun _ => s)

end PastTop

/-- Settles O12, by the form of the instruction: a plain advance over one, two or three bytes, an advance
behind a condition of its own (DIV, MOD, INT, a jump not taken), or CALL's return address. -/
theorem nextPcPastTopHalts : Obligations.NextPcPastTopHalts := by
  unfold Obligations.NextPcPastTopHalts
  intro s i hw hs hp
  cases i with
  | hlt | ret | iret | jmp a => exact False.elim hs
  | nop => exact commit_halts (advance_past hp s)
  | push a | pop a | prn a | pra a | inc a | dec a | not a | ldi a imm =>
    exact commit_halts (onReg_advance_past hw hp _)
  | ld a b | st a b | cmp a b | add a b | sub a b | mul a b | and a b | or a b | xor a b | shl a b
  | shr a b => exact commit_halts (onRegs_advance_past hw hp _)
  | div a b | mod a b => exact commit_halts (aluDivide_past hw hs hp _)
  | int a => exact exec_int_past hw hs hp
  | call a => exact exec_call_past hw hp
  | jeq a | jgt a | jlt a => exact condJump_past hs hw hp
  | jne a => exact condJump_past (congrArg Bool.not hs) hw hp
  | jle a | jge a => exact condJump_past (Bool.or_eq_false_iff.mpr hs) hw hp

end Sys2Proof.Machine

/-! ## Acceptance of the lowest line, and the timer (spec/60_exceptions.md R134 to R136, R142) -/

namespace Sys2Proof.Machine

/-- With IC Normal, a line that is pending and enabled is accepted when no lower one is (R134, R135): the
line that is accepted can be neither lower nor higher. -/
theorem acceptedLine_of_lowest {s : State} {i : Fin 8} (hic : s.ic = .normal)
    (hi : (s.is &&& s.im).getLsbD i = true)
    (hlow : ∀ j : Fin 8, j < i → (s.is &&& s.im).getLsbD j = false) : acceptedLine s = some i := by
  cases ha : acceptedLine s with
  | none =>
    rcases acceptedLine_none.mp ha with h | h
    · rw [hic] at h; cases h
    · rw [h i] at hi; cases hi
  | some k =>
    obtain ⟨-, hk, hbelow⟩ := acceptedLine_some ha
    rcases lt_trichotomy k i with h | rfl | h
    · rw [hlow k h] at hk; cases hk
    · rfl
    · rw [hbelow i h] at hi; cases hi

/-- The vector of line `i` stands at 0xF8 + i, which does not wrap (R49). -/
theorem vectorAddr_toNat (i : Fin 8) : (vectorAddr i).toNat = 0xF8 + i.val := by
  revert i; decide

/-- An entry takes pc from the vector as memory holds it after the pushes (R136). -/
theorem interruptEntry_pc (i : Fin 8) (s : State) :
    (interruptEntry i s).pc = (interruptEntry i s).mem.read (0xF8 + i.val) := by
  obtain ⟨hmem, -, hpc, -⟩ := interruptEntry_fields i s
  rw [hpc, hmem, State.load, vectorAddr_toNat]

/-- An entry clears the IS bit of its own line (R136). -/
theorem interruptEntry_is_line (i : Fin 8) (s : State) :
    (interruptEntry i s).is.getLsbD i = false := by
  obtain ⟨-, -, -, his, -⟩ := interruptEntry_fields i s
  simp [his, lineMask_getLsbD]

theorem interruptEntry_ic (i : Fin 8) (s : State) : (interruptEntry i s).ic = .handling := rfl

/-- A draw that requests `line`, where it is enabled and no lower line is pending and enabled, makes the step
of a Running machine with IC Normal the entry for `line` (R68, R134, R135). -/
theorem stepWith_request_enters {line : Fin 8} {irq : Byte} {s : State} (hrs : s.rs = .running)
    (hic : s.ic = .normal) (him : s.im.getLsbD line = true)
    (hlow : ∀ j : Fin 8, j < line → ¬ ((s.is ||| irq).getLsbD j = true ∧ s.im.getLsbD j = true)) :
    stepWith (irq ||| lineMask line.val) s =
      .next (interruptEntry line (s.setIs (s.is ||| (irq ||| lineMask line.val)))) := by
  rw [stepWith_running hrs, ← sampleIrq_draw]
  refine step_entry hrs ?_
  rw [sampleIrq_draw]
  refine acceptedLine_of_lowest hic ?_ fun j hj => ?_
  · simp [lineMask_getLsbD, him]
  · have hne : j.val ≠ line.val := Nat.ne_of_lt hj
    simpa [lineMask_getLsbD, hne, -BitVec.getLsbD_eq_getElem] using hlow j hj

/-- The timer's requests repeat after TIMER_PERIOD steps (R7). -/
theorem timerRequest_add_period (line : Fin 8) (period phase n : Nat) :
    timerRequest line period phase (n + period) = timerRequest line period phase n := by
  simp [timerRequest]

/-- At a step where the timer is not due it leaves the draw as it is (R142). -/
theorem addTimer_step_not_due {line : Fin 8} {period phase n : Nat} (h : n % period ≠ phase % period)
    (irq : Byte) (ms : List HostMove) :
    addTimer line period phase n (.step irq :: ms) =
      .step irq :: addTimer line period phase (n + 1) ms := by
  rw [addTimer_step, timerRequest_not_due h, BitVec.or_zero]

/-- At a step where the timer is due it adds its line to the draw (R142). -/
theorem addTimer_step_due {line : Fin 8} {period phase n : Nat} (hp : 0 < period)
    (h : n % period = phase % period) (irq : Byte) (ms : List HostMove) :
    addTimer line period phase n (.step irq :: ms) =
      .step (irq ||| lineMask line.val) :: addTimer line period phase (n + 1) ms := by
  rw [addTimer_step, timerRequest_due hp h]

/-- Settles O60: the request repeats with the period, adds nothing where it is not due, and where it is due the
step is the entry for the timer's line. -/
theorem timerInterruptsAtItsPeriod : Obligations.TimerInterruptsAtItsPeriod := by
  unfold Obligations.TimerInterruptsAtItsPeriod
  intro line period phase n irq s hp
  refine ⟨timerRequest_add_period line period phase n, fun hn ms => ?_, fun hn hrs hic him hlow => ?_⟩
  · rw [addTimer_step_not_due hn]
  · refine ⟨interruptEntry line (s.setIs (s.is ||| (irq ||| lineMask line.val))), ?_,
      interruptEntry_ic _ _, interruptEntry_is_line _ _, interruptEntry_pc _ _⟩
    rw [addTimer_step_due hp hn, hostRun_step (stepWith_request_enters hrs hic him hlow), addTimer_nil,
      hostRun_nil]

end Sys2Proof.Machine

/-! ## What every instruction and every step keeps (spec/10_state.md R25 to R34, R127, R129) -/

namespace Sys2Proof.Machine

/-- What an instruction leaves alone, in the fields that no fatal halt touches. -/
structure InstrFrame (i : Instr) (s t : State) : Prop where
  im : t.im = s.im
  fl : (∀ a b, i ≠ .cmp a b) → i ≠ .iret → t.fl = s.fl
  /-- No pending bit is cleared. -/
  pending : ∀ j : Nat, s.is.getLsbD j = true → t.is.getLsbD j = true
  is : (∀ a, i ≠ .int a) → t.is = s.is
  ic : i ≠ .iret → t.ic = s.ic
  out : (∀ a, i ≠ .prn a ∧ i ≠ .pra a) → t.out = s.out
  outGrows : ∃ es, t.out = s.out ++ es ∧ es.length ≤ 1

section Exec

variable {i : Instr} {s t : State}

/-- The frame holds at both ends of an instruction: a fatal halt writes RS and HR alone, and a written pc adds
nothing to the frame of the effect. -/
theorem exec_frame (h : exec i s = .next t) : InstrFrame i s t := by
  rcases exec_cases h with ⟨k, -, rfl⟩ | ⟨u, p, he, rfl⟩
  · exact ⟨rfl, fun _ _ => rfl, fun _ hj => hj, fun _ => rfl, fun _ => rfl, fun _ => rfl, [], by simp⟩
  · obtain ⟨him, -, hfl, hpending, his, hic, -, hout, hgrows, -, -⟩ := he.frame
    exact ⟨him, hfl, hpending, his, hic, hout, hgrows⟩

/-- IRET has no fatal error, so it always reaches Normal (R104). -/
theorem exec_iret_ic (h : exec .iret s = .next t) : t.ic = .normal := by
  rw [exec_iret] at h
  rw [← Host.Outcome.next.inj h]
  obtain ⟨-, -, -, hic, -⟩ := interruptReturn_others s
  exact hic

/-- What an instruction does to the run state: nothing, HLT's halt, or a fatal halt (R30, R31, R127). -/
theorem exec_run (h : exec i s = .next t) :
    SameRun s t ∨ (i = .hlt ∧ t.rs = .halted ∧ t.hr = .normal) ∨
      ∃ k, k ≠ .stackImbalanceError ∧ t = fatalHalt k s := by
  rcases exec_cases h with hfatal | ⟨u, p, he, rfl⟩
  · exact .inr (.inr hfatal)
  · obtain ⟨-, -, -, -, -, -, -, -, -, hrun, hhlt⟩ := he.frame
    by_cases hi : i = .hlt
    · exact .inr (.inl ⟨hi, hhlt hi⟩)
    · exact .inl (hrun hi)

theorem exec_wf (h : exec i s = .next t) (hw : s.mem.wf) : t.mem.wf := by
  rcases exec_cases h with ⟨k, -, rfl⟩ | ⟨u, p, he, rfl⟩
  · exact hw
  · exact he.wf hw

end Exec

/-- Interrupt entry does not write FL (R25). -/
theorem interruptEntry_fl (i : Fin 8) (s : State) : (interruptEntry i s).fl = s.fl := by
  obtain ⟨-, -, -, -, -, hfl, -⟩ := interruptEntry_fields i s
  exact hfl

theorem interruptEntry_im (i : Fin 8) (s : State) : (interruptEntry i s).im = s.im := by
  obtain ⟨-, -, -, -, -, -, him, -⟩ := interruptEntry_fields i s
  exact him

/-- Interrupt entry halts nothing (R136). -/
theorem interruptEntry_run (i : Fin 8) (s : State) : SameRun s (interruptEntry i s) := by
  obtain ⟨-, -, -, -, -, -, -, hrs, hhr, -⟩ := interruptEntry_fields i s
  exact ⟨hrs, hhr⟩

theorem interruptEntry_out (i : Fin 8) (s : State) : (interruptEntry i s).out = s.out := by
  obtain ⟨-, -, -, -, -, -, -, -, -, hout, -⟩ := interruptEntry_fields i s
  exact hout

theorem interruptEntry_wf {s : State} (i : Fin 8) (h : s.mem.wf) : (interruptEntry i s).mem.wf := by
  obtain ⟨hmem, -⟩ := interruptEntry_fields i s
  rw [hmem]
  exact pushFrame_wf h

/-- The inversion of `step`: the machine is Halted and unchanged, enters an interrupt, halts on a failed fetch,
or executes the instruction it has fetched (R67). -/
theorem step_next_cases {s t : State} (h : step s = .next t) :
    (s.rs = .halted ∧ t = s) ∨
    (s.rs = .running ∧ ∃ i, acceptedLine (sampleIrq s) = some i ∧ t = interruptEntry i (sampleIrq s)) ∨
    (AtInstruction s ∧ ∃ k, fetchInstr (sampleIrq s) = .error k ∧ t = fatalHalt k (sampleIrq s)) ∨
    (AtInstruction s ∧ ∃ i, fetchInstr (sampleIrq s) = .ok i ∧ exec i (sampleIrq s) = .next t) := by
  rcases step_cases s with ⟨hrs, e⟩ | ⟨hrs, i, ha, e⟩ | ⟨hat, k, hf, e⟩ | ⟨hat, i, hf, e⟩ <;> rw [e] at h
  · cases h
    exact .inl ⟨hrs, rfl⟩
  · cases h
    exact .inr (.inl ⟨hrs, i, ha, rfl⟩)
  · cases h
    exact .inr (.inr (.inl ⟨hat, k, hf, rfl⟩))
  · exact .inr (.inr (.inr ⟨hat, i, hf, h⟩))

/-! ### The invariant -/

/-- A failed fetch never raises StackImbalanceError (R127). -/
theorem fetchInstr_error_kind {s : State} {k : FatalKind} (h : fetchInstr s = .error k) :
    k ≠ .stackImbalanceError := by
  unfold fetchInstr at h
  split at h
  · cases h
  · next e _ =>
    cases h
    cases e <;> exact FatalKind.noConfusion

theorem haltConsistent_running {s : State} (hrs : s.rs = .running) (hhr : s.hr = .none) :
    HaltConsistent s := by
  simp [HaltConsistent, hrs, hhr]

theorem haltConsistent_normal {s : State} (hrs : s.rs = .halted) (hhr : s.hr = .normal) :
    HaltConsistent s := by
  simp [HaltConsistent, hrs, hhr]

/-- The record of a fatal halt names pc, which the halt keeps (R129). -/
theorem haltConsistent_fatalHalt {k : FatalKind} (hk : k ≠ .stackImbalanceError) (s : State) :
    HaltConsistent (fatalHalt k s) := by
  refine ⟨⟨RunState.noConfusion, HaltRecord.noConfusion⟩, fun k' p h => ?_⟩
  cases h
  exact ⟨rfl, hk⟩

/-- A Running machine that meets the invariant has no halt record (R31). -/
theorem Inv.hr_none {s : State} (h : Inv s) (hrs : s.rs = .running) : s.hr = .none := by
  obtain ⟨-, hrun, -⟩ := h
  exact hrun.mp hrs

/-- What keeps the run state of a Running machine, and its memory in canonical form, keeps the invariant. -/
theorem Inv.of_sameRun {s t : State} (h : Inv s) (hrs : s.rs = .running) (hrun : SameRun s t)
    (hw : t.mem.wf) : Inv t := by
  obtain ⟨hrs', hhr'⟩ := hrun
  exact ⟨hw, haltConsistent_running (hrs'.trans hrs) (hhr'.trans (h.hr_none hrs))⟩

theorem Inv.sampleIrq {s : State} (h : Inv s) : Inv (sampleIrq s) := h

theorem Inv.fatalHalt {s : State} (h : Inv s) {k : FatalKind} (hk : k ≠ .stackImbalanceError) :
    Inv (fatalHalt k s) :=
  ⟨h.1, haltConsistent_fatalHalt hk s⟩

theorem Inv.interruptEntry {s : State} (h : Inv s) (hrs : s.rs = .running) (i : Fin 8) :
    Inv (interruptEntry i s) :=
  h.of_sameRun hrs (interruptEntry_run i s) (interruptEntry_wf i h.1)

/-- An instruction on a Running machine keeps the invariant: it leaves the run state alone, or halts with the
record that belongs to the halt. -/
theorem Inv.exec {i : Instr} {s t : State} (h : Inv s) (hrs : s.rs = .running)
    (he : exec i s = .next t) : Inv t := by
  rcases exec_run he with hrun | ⟨-, hrs', hhr'⟩ | ⟨k, hk, rfl⟩
  · exact h.of_sameRun hrs hrun (exec_wf he h.1)
  · exact ⟨exec_wf he h.1, haltConsistent_normal hrs' hhr'⟩
  · exact h.fatalHalt hk

/-- Settles O52, by the kinds of step: a Halted machine is unchanged, and each move of a Running one keeps the
invariant of the sampled state. -/
theorem everyStepKeepsTheInvariant : Obligations.EveryStepKeepsTheInvariant := by
  unfold Obligations.EveryStepKeepsTheInvariant
  intro s t hinv h
  rcases step_next_cases h with ⟨-, rfl⟩ | ⟨hrs, i, -, rfl⟩ | ⟨-, k, hf, rfl⟩ | ⟨⟨hrs, -⟩, i, -, he⟩
  · exact hinv
  · exact hinv.sampleIrq.interruptEntry hrs i
  · exact hinv.sampleIrq.fatalHalt (fetchInstr_error_kind hf)
  · exact hinv.sampleIrq.exec hrs he

/-- Settles O51: memory is empty, and the machine is Running with no halt record. -/
theorem resetMeetsTheInvariant : Obligations.ResetMeetsTheInvariant :=
  ⟨Memory.wf_nil, haltConsistent_running rfl rfl⟩

/-! ### FL, IS, IC, OUT and the run state -/

/-- Settles O54, from the frames of an instruction and of an interrupt entry. -/
theorem onlyCmpAndIretWriteFlags : Obligations.OnlyCmpAndIretWriteFlags := by
  unfold Obligations.OnlyCmpAndIretWriteFlags
  exact ⟨fun i s t h => (exec_frame h).fl, fun s i => interruptEntry_fl i s⟩

/-- Settles O55, from the frame of an instruction. -/
theorem onlyIntWritesPendingBits : Obligations.OnlyIntWritesPendingBits := by
  unfold Obligations.OnlyIntWritesPendingBits
  exact fun i s t h => ⟨(exec_frame h).pending, (exec_frame h).is⟩

/-- Over a step IC goes from Normal to Handling only by an interrupt entry (R29). -/
theorem step_normal_handling {s t : State} (h : step s = .next t) (hs : s.ic = .normal)
    (ht : t.ic = .handling) :
    ∃ i, acceptedLine (sampleIrq s) = some i ∧ t = interruptEntry i (sampleIrq s) := by
  rcases step_next_cases h with ⟨-, rfl⟩ | ⟨-, hentry⟩ | ⟨-, k, -, rfl⟩ | ⟨-, i, -, he⟩
  · simp [hs] at ht
  · exact hentry
  · simp [hs] at ht
  · by_cases hi : i = .iret
    · subst hi
      simp [exec_iret_ic he] at ht
    · simp [(exec_frame he).ic hi, hs] at ht

/-- Over a step IC goes from Handling to Normal only by an IRET (R29). -/
theorem step_handling_normal {s t : State} (h : step s = .next t) (hs : s.ic = .handling)
    (ht : t.ic = .normal) : AtInstruction s ∧ fetchInstr (sampleIrq s) = .ok .iret := by
  rcases step_next_cases h with ⟨-, rfl⟩ | ⟨-, i, -, rfl⟩ | ⟨-, k, -, rfl⟩ | ⟨hat, i, hf, he⟩
  · simp [hs] at ht
  · simp [interruptEntry_ic] at ht
  · simp [hs] at ht
  · by_cases hi : i = .iret
    · exact ⟨hat, hi ▸ hf⟩
    · simp [(exec_frame he).ic hi, hs] at ht

/-- Settles O56, the two clauses over a step by the kinds of step. -/
theorem onlyEntryAndIretWriteController : Obligations.OnlyEntryAndIretWriteController := by
  unfold Obligations.OnlyEntryAndIretWriteController
  exact ⟨fun s i => interruptEntry_ic i s, fun _ _ _ h => (exec_frame h).ic, fun _ _ => exec_iret_ic,
    fun _ _ => step_normal_handling, fun _ _ => step_handling_normal⟩

/-- A step appends at most one event, and only an instruction appends any (R34). -/
theorem step_out_grows {s t : State} (h : step s = .next t) :
    ∃ es, t.out = s.out ++ es ∧ es.length ≤ 1 := by
  rcases step_next_cases h with ⟨-, rfl⟩ | ⟨-, i, -, rfl⟩ | ⟨-, k, -, rfl⟩ | ⟨-, i, -, he⟩
  · exact ⟨[], by simp⟩
  · exact ⟨[], by simp [interruptEntry_out]⟩
  · exact ⟨[], by simp⟩
  · exact (exec_frame he).outGrows

/-- Settles O57, from the frame of an instruction and the kinds of step. -/
theorem outputOnlyGrows : Obligations.OutputOnlyGrows := by
  unfold Obligations.OutputOnlyGrows
  exact ⟨fun _ _ _ h => (exec_frame h).out, fun _ _ => step_out_grows⟩

/-- An instruction that halts a Running machine is HLT or ends in a fatal error (R30, R148). -/
theorem exec_halts {i : Instr} {s t : State} (hrs : s.rs = .running) (h : exec i s = .next t)
    (ht : t.rs = .halted) : (i = .hlt ∧ t.hr = .normal) ∨ ∃ k, t.hr = .fatal k s.pc := by
  rcases exec_run h with ⟨hrun, -⟩ | ⟨hi, -, hhr⟩ | ⟨k, -, rfl⟩
  · simp [hrun, hrs] at ht
  · exact .inl ⟨hi, hhr⟩
  · exact .inr ⟨k, rfl⟩

/-- Settles O58, by the kinds of step: an entry halts nothing, a failed fetch is a fatal error, and an
instruction halts only as `exec_halts` says. -/
theorem haltedOnlyByHltOrFatalError : Obligations.HaltedOnlyByHltOrFatalError := by
  unfold Obligations.HaltedOnlyByHltOrFatalError
  refine ⟨fun s t hrs h ht => ?_, fun _ _ _ => exec_halts⟩
  rcases step_next_cases h with ⟨hrs', -⟩ | ⟨-, i, -, rfl⟩ | ⟨hat, k, -, rfl⟩ | ⟨hat, i, hf, he⟩
  · simp [hrs] at hrs'
  · simp [(interruptEntry_run i (sampleIrq s)).1, hrs] at ht
  · exact ⟨hat, .inr ⟨k, rfl⟩⟩
  · refine ⟨hat, ?_⟩
    rcases exec_halts (s := sampleIrq s) hrs he ht with ⟨rfl, hhr⟩ | hfatal
    · exact .inl ⟨hf, hhr⟩
    · exact .inr hfatal

/-! ### IM reaches no instruction (R27)

Two transactions correspond when the second is the first with `v` in IM. Every operation an instruction is made
of takes a state and the same state with `v` in IM to transactions that correspond. -/

/-- `tx'` ends as `tx` does, with `v` in IM. -/
def TxWithIm (v : Byte) (tx tx' : Tx) : Prop := tx' = tx.map (State.setIm · v)

section

variable {v : Byte}

theorem TxWithIm.ok (t : State) : TxWithIm v (.ok t) (.ok (t.setIm v)) := rfl

theorem TxWithIm.error (k : FatalKind) : TxWithIm v (.error k) (.error k) := rfl

theorem TxWithIm.advance (n : Nat) (s t : State) :
    TxWithIm v (advance n s t) (advance n (s.setIm v) (t.setIm v)) := by
  rcases advance_cases n s t with ⟨h, e⟩ | ⟨h, e⟩ <;> rw [e]
  · exact advance_ok (s := s.setIm v) h _
  · exact advance_error (s := s.setIm v) h _

theorem TxWithIm.ite {c : Prop} [Decidable c] {x x' y y' : Tx} (hx : TxWithIm v x x') (hy : TxWithIm v y y') :
    TxWithIm v (if c then x else y) (if c then x' else y') := by
  split
  · exact hx
  · exact hy

theorem TxWithIm.onReg {k k' : Fin 8 → Tx} (h : ∀ ra, TxWithIm v (k ra) (k' ra)) (a : Byte) :
    TxWithIm v (onReg a k) (onReg a k') := by
  rcases regIdx_cases a with ⟨ra, ha, -⟩ | ⟨ha, -⟩
  · rw [onReg_of_toNat ha, onReg_of_toNat ha]
    exact h ra
  · rw [onReg_error ha, onReg_error ha]
    exact error _

theorem TxWithIm.onRegs {k k' : Fin 8 → Fin 8 → Tx} (h : ∀ ra rb, TxWithIm v (k ra rb) (k' ra rb))
    (a b : Byte) : TxWithIm v (onRegs a b k) (onRegs a b k') :=
  onReg (fun ra => onReg (h ra) b) a

theorem TxWithIm.aluDivide (op : Byte → Byte → Byte) (a b : Byte) (s : State) :
    TxWithIm v (aluDivide op a b s) (aluDivide op a b (s.setIm v)) :=
  onRegs (fun ra _ => ite (error _) (advance 2 s (s.setReg ra _))) a b

end

/-- `o` is a next state, and `o'` is that state with `v` in IM. -/
def NextWithIm (v : Byte) (o o' : Host.Outcome State Fault Refusal) : Prop :=
  ∃ t, o = .next t ∧ o' = .next (t.setIm v)

theorem TxWithIm.commit {v : Byte} {s : State} {tx tx' : Tx} (h : TxWithIm v tx tx') :
    NextWithIm v (commit s tx) (commit (s.setIm v) tx') := by
  subst h
  cases tx with
  | ok t => exact ⟨t, rfl, rfl⟩
  | error k => exact ⟨fatalHalt k s, rfl, rfl⟩

theorem condJump_setIm (c : Bool) (a : Byte) (s : State) (v : Byte) :
    NextWithIm v (condJump c a s) (condJump c a (s.setIm v)) :=
  TxWithIm.commit (.onReg (fun ra => .ite (.ok (s.setPc (s.getReg ra))) (.advance 1 s s)) a)

theorem foldl_popReg_setIm (v : Byte) (rs : List (Fin 8)) (s : State) :
    rs.foldl popReg (s.setIm v) = (rs.foldl popReg s).setIm v := by
  induction rs generalizing s with
  | nil => rfl
  | cons r rs ih => exact ih (popReg s r)

theorem interruptReturn_setIm (s : State) (v : Byte) :
    interruptReturn (s.setIm v) = (interruptReturn s).setIm v := by
  unfold interruptReturn
  rw [foldl_popReg_setIm]
  generalize savedRegs.reverse.foldl popReg s = t
  rfl

/-- With another value in IM an instruction has the same effect (R27). -/
theorem exec_setIm (i : Instr) (s : State) (v : Byte) :
    NextWithIm v (exec i s) (exec i (s.setIm v)) := by
  cases i with
  | nop => exact TxWithIm.commit (.advance 0 s s)
  | hlt => exact TxWithIm.commit (s := s) (.ok (s.halt .normal))
  | ret => exact TxWithIm.commit (s := s) (.ok (s.popRest.setPc s.popValue))
  | iret => exact ⟨interruptReturn s, exec_iret s, by rw [exec_iret, interruptReturn_setIm]⟩
  | jmp a => exact TxWithIm.commit (.onReg (fun _ => .ok _) a)
  | jeq a | jne a | jgt a | jlt a | jle a | jge a => exact condJump_setIm _ a s v
  | call a => exact TxWithIm.commit (.onReg (fun _ => .ite (.error _) (.ok _)) a)
  | int a => exact TxWithIm.commit (.onReg (fun _ => .ite (.error _) (.advance 1 s _)) a)
  | push a | pop a | prn a | pra a | inc a | dec a | not a =>
    exact TxWithIm.commit (.onReg (fun _ => .advance 1 s _) a)
  | ldi a imm => exact TxWithIm.commit (.onReg (fun _ => .advance 2 s _) a)
  | div a b | mod a b => exact TxWithIm.commit (.aluDivide _ a b s)
  | ld a b | st a b | cmp a b | add a b | sub a b | mul a b | and a b | or a b | xor a b | shl a b
  | shr a b => exact TxWithIm.commit (.onRegs (fun _ _ => .advance 2 s _) a b)

/-- No step writes IM (R27). -/
theorem step_im {s t : State} (h : step s = .next t) : t.im = s.im := by
  rcases step_next_cases h with ⟨-, rfl⟩ | ⟨-, i, -, rfl⟩ | ⟨-, k, -, rfl⟩ | ⟨-, i, -, he⟩
  · rfl
  · exact interruptEntry_im i _
  · rfl
  · exact (exec_frame he).im

/-- Settles O53: the effect does not depend on IM (`exec_setIm`), and neither instruction nor step writes it. -/
theorem noInstructionReadsOrWritesIm : Obligations.NoInstructionReadsOrWritesIm := by
  unfold Obligations.NoInstructionReadsOrWritesIm
  refine ⟨fun i s v => ?_, fun _ _ => step_im⟩
  obtain ⟨t, ht, hv⟩ := exec_setIm i s v
  exact ⟨t, ht, (exec_frame ht).im, hv⟩

/-! ### The comparison and the FL byte (R24, R26, R113) -/

/-- CMP in a state where the address after it fits in a byte: FL from the comparison, pc moved on by 3. -/
theorem exec_cmp {s : State} {a b : Byte} {ra rb : Fin 8} (ha : NamesReg a ra) (hb : NamesReg b rb)
    (hp : s.pc.toNat + 3 ≤ 0xFF) :
    exec (.cmp a b) s = .next ((s.setFl (cmpFlags (s.getReg ra) (s.getReg rb))).setPc
      (BitVec.ofNat 8 (s.pc.toNat + 3))) := by
  change commit s (onRegs a b _) = _
  rw [onRegs_of_toNat ha hb, advance_ok (by omega), commit_ok, Nat.add_assoc]

/-- Exactly one of E, G and L is set, by the trichotomy of the unsigned order (R26). -/
theorem cmpFlags_exactly_one (x y : Byte) :
    cmpFlags x y ∈ [Flags.mk true false false, Flags.mk false true false, Flags.mk false false true] := by
  rcases Nat.lt_trichotomy x.toNat y.toNat with h | h | h
  · simp [cmpFlags, h, Nat.ne_of_lt h, Nat.le_of_lt h]
  · simp [cmpFlags, h]
  · simp [cmpFlags, h, Nat.ne_of_gt h, Nat.le_of_lt h]

/-- Settles O46: each flag is a decision of the comparison, and `cmpFlags_exactly_one` says one of them holds. -/
theorem cmpSetsExactlyOneFlag : Obligations.CmpSetsExactlyOneFlag := by
  unfold Obligations.CmpSetsExactlyOneFlag
  intro s a b ra rb ha hb hp
  exact ⟨_, exec_cmp ha hb hp, decide_eq_true_iff, decide_eq_true_iff, decide_eq_true_iff,
    cmpFlags_exactly_one _ _, Nat.mod_eq_of_lt (by omega), fun _ _ => rfl, fun _ _ => rfl,
    ⟨rfl, rfl, rfl, rfl⟩, ⟨rfl, rfl⟩, rfl⟩

theorem flByte_toNat_lt (f : Flags) : (flByte f).toNat < 2 ^ 3 := by
  obtain ⟨e, g, l⟩ := f
  revert e g l
  decide

theorem flByte_bits (f : Flags) : (flByte f).getLsbD 0 = f.e ∧ (flByte f).getLsbD 1 = f.g ∧
    (flByte f).getLsbD 2 = f.l := by
  obtain ⟨e, g, l⟩ := f
  revert e g l
  decide

/-- Bits 7:3 of the FL byte are 0, since it is below 8 (R24). -/
theorem flByte_high (f : Flags) (j : Nat) (hj : 3 ≤ j) : (flByte f).getLsbD j = false := by
  rw [← BitVec.testBit_toNat]
  exact Nat.testBit_lt_two_pow
    ((flByte_toNat_lt f).trans_le (Nat.pow_le_pow_right (by decide) hj))

/-- Settles O59: the byte's bits are those of FL, so reading it back gives FL. -/
theorem flagByteImage : Obligations.FlagByteImage := by
  unfold Obligations.FlagByteImage
  refine ⟨fun f => ?_, fun _ => rfl⟩
  obtain ⟨he, hg, hl⟩ := flByte_bits f
  exact ⟨he, hg, hl, flByte_high f, by simp only [flOfByte, he, hg, hl]⟩

end Sys2Proof.Machine

/-! ## The launch and the text form of an image (spec/10_state.md R37, spec/70_reset_and_hazards.md R152, R153) -/

namespace Sys2Proof.Machine

/-! ### Memory after an image has been placed -/

/-- Placing bytes from `a` upward leaves the addresses below and past them alone (R40). -/
theorem Memory.read_writeBytes_outside (vs : List Byte) {m : Memory} {a k : Nat}
    (hk : k < a ∨ a + vs.length ≤ k) : (m.writeBytes a vs).read k = m.read k := by
  induction vs generalizing m a with
  | nil => rfl
  | cons v vs ih =>
    rw [List.length_cons] at hk
    unfold Memory.writeBytes
    split
    · rw [ih (by omega), Memory.read_write_ne _ _ (by omega)]
    · rfl

/-- Bytes placed inside the address space read back in their order (R39, R40). -/
theorem Memory.read_writeBytes_inside (vs : List Byte) {m : Memory} {a : Nat} (ha : a + vs.length ≤ 256)
    (k : Nat) (hk : k < vs.length) : (m.writeBytes a vs).read (a + k) = vs[k] := by
  induction vs generalizing m a k with
  | nil => cases hk
  | cons v vs ih =>
    rw [List.length_cons] at ha
    have htop : a ≤ Config.topAddr := by simp only [Config.topAddr]; omega
    rw [Memory.writeBytes, if_pos htop]
    cases k with
    | zero =>
      exact (Memory.read_writeBytes_outside vs (.inl (Nat.lt_succ_self a))).trans
        (Memory.read_write_self m a v)
    | succ k =>
      have hlater := ih (m := m.write a v) (a := a + 1) (by omega) k (Nat.lt_of_succ_lt_succ hk)
      rw [Nat.add_right_comm] at hlater
      exact hlater

/-! ### The launch (R37, R149) -/

/-- The state a launch gives for an image that fits. -/
def launched (image : List Byte) (im : Byte) : State :=
  { State.reset with mem := Memory.writeBytes [] 0 image, im := im }

theorem launch_fits {image : List Byte} (h : image.length ≤ 256) (im : Byte) :
    launch image im = some (launched image im) := if_pos h

theorem launch_too_long {image : List Byte} (h : 256 < image.length) (im : Byte) :
    launch image im = none := if_neg (Nat.not_le.mpr h)

theorem launched_getReg (image : List Byte) (im : Byte) {r : Fin 8} (h : r ≠ 7) :
    (launched image im).getReg r = 0x00#8 := by
  have hreset : ∀ r : Fin 8, r ≠ 7 → State.reset.getReg r = 0x00#8 := by decide
  exact hreset r h

theorem launchTable_launched {image : List Byte} (h : image.length ≤ 256) (im : Byte) :
    LaunchTable image im (launched image im) := by
  have hin : ∀ (k : Nat) (hk : k < image.length), (launched image im).mem.read k = image[k] :=
    fun k hk => by
      have := Memory.read_writeBytes_inside image (m := []) (a := 0) (by omega) k hk
      rwa [Nat.zero_add] at this
  have hout : ∀ k : Nat, image.length ≤ k → (launched image im).mem.read k = 0x00#8 := fun k hk =>
    Memory.read_writeBytes_outside image (m := []) (a := 0) (.inr (by omega))
  exact ⟨fun r => launched_getReg image im, rfl, rfl, rfl, rfl, rfl, rfl, rfl, rfl, rfl, hin, hout⟩

theorem inv_launched (image : List Byte) (im : Byte) : Inv (launched image im) :=
  ⟨Memory.wf_writeBytes image Memory.wf_nil 0, haltConsistent_running rfl rfl⟩

/-- Settles O48: the reset state is the launch of no image with IM 0. -/
theorem launchGivesTheResetTable : Obligations.LaunchGivesTheResetTable := by
  unfold Obligations.LaunchGivesTheResetTable
  exact ⟨fun image im h => ⟨launched image im, launch_fits h im, launchTable_launched h im,
    inv_launched image im⟩, launchTable_launched (image := []) (Nat.zero_le _) 0x00#8⟩

/-! ### One line (R152, R153)

What a line is read as depends on what stands before its comment alone, and so do the forms `BlankLine` and
`LiteralLine`. -/

theorem blankLine_iff (line : List Char) : BlankLine line ↔ WhiteSpace (beforeComment line) := by
  constructor
  · rintro ⟨blank, rest, hb, hr, rfl⟩
    rwa [beforeComment_append hb.no_hash hr]
  · intro h
    obtain ⟨rest, hr, he⟩ := beforeComment_split line
    exact ⟨_, rest, h, hr, he⟩

theorem literalDigits_no_hash (v : Byte) : ∀ c ∈ literalDigits v, c ≠ '#' := fun c hc => by
  rcases literalDigits_binary v c hc with rfl | rfl <;> decide

theorem literalLine_iff (v : Byte) (line : List Char) :
    LiteralLine v line ↔ ∃ blank, WhiteSpace blank ∧ beforeComment line = literalDigits v ++ blank := by
  constructor
  · rintro ⟨blank, rest, hb, hr, rfl⟩
    refine ⟨blank, hb, ?_⟩
    rw [← List.append_assoc, beforeComment_append _ hr]
    exact fun c hc => (List.mem_append.mp hc).elim (literalDigits_no_hash v c) (hb.no_hash c)
  · rintro ⟨blank, hb, ht⟩
    obtain ⟨rest, hr, he⟩ := beforeComment_split line
    exact ⟨blank, rest, hb, hr, by rw [← List.append_assoc, ← ht, ← he]⟩

/-- A literal is not blank: its first digit is not white space. -/
theorem not_whiteSpace_literal (v : Byte) (blank : List Char) :
    ¬ WhiteSpace (literalDigits v ++ blank) := by
  intro h
  have hmem : (literalDigits v).head (List.cons_ne_nil _ _) ∈ literalDigits v := List.head_mem _
  have hw := h _ (List.mem_append_left _ hmem)
  rcases literalDigits_binary v _ hmem with hd | hd <;> rw [hd] at hw <;> revert hw <;> decide

theorem readImageLine_comment_iff (line : List Char) : readImageLine line = .comment ↔ BlankLine line := by
  rw [blankLine_iff, ← all_isBlankChar_iff]
  simp only [readImageLine]
  constructor
  · intro h
    by_contra hb
    rw [if_neg hb] at h
    split at h
    · split at h <;> cases h
    · cases h
  · exact fun h => if_pos h

/-- A line read as a byte has its literal in the eight digits at its start. -/
theorem literalLine_of_readImageLine {line : List Char} {v : Byte} (h : readImageLine line = .byte v) :
    LiteralLine v line := by
  rw [literalLine_iff]
  simp only [readImageLine] at h
  split at h
  · cases h
  · split at h
    · next hlit =>
      rw [Bool.and_eq_true, beq_iff_eq, all_isBlankChar_iff] at hlit
      obtain ⟨hblank, hlen⟩ := hlit
      split at h
      · next n hn =>
        cases h
        exact ⟨_, hblank, by rw [← binaryValue_eight hlen hn, List.take_append_drop]⟩
      · cases h
    · cases h

theorem readImageLine_literal {line : List Char} {v : Byte} (h : LiteralLine v line) :
    readImageLine line = .byte v := by
  obtain ⟨blank, hb, ht⟩ := (literalLine_iff v line).mp h
  have htake : (literalDigits v ++ blank).take 8 = literalDigits v := List.take_left' rfl
  have hdrop : (literalDigits v ++ blank).drop 8 = blank := List.drop_left' rfl
  have hnot : ¬ (literalDigits v ++ blank).all isBlankChar = true := fun hall =>
    not_whiteSpace_literal v blank ((all_isBlankChar_iff _).mp hall)
  have hall : blank.all isBlankChar = true := (all_isBlankChar_iff _).mpr hb
  simp [readImageLine, ht, htake, hdrop, hnot, hall, literalDigits_length, literalDigits_value]

theorem readImageLine_byte_iff (line : List Char) (v : Byte) :
    readImageLine line = .byte v ↔ LiteralLine v line :=
  ⟨literalLine_of_readImageLine, readImageLine_literal⟩

/-- A line is malformed exactly when it is read neither as a comment nor as a byte. -/
theorem readImageLine_malformed_iff (line : List Char) :
    readImageLine line = .malformed ↔ ¬ BlankLine line ∧ ∀ v : Byte, ¬ LiteralLine v line := by
  rw [← readImageLine_comment_iff]
  simp only [← readImageLine_byte_iff]
  cases readImageLine line <;> simp

/-! ### The lines of an image (R152, R153) -/

theorem readImage_comment {line : List Char} (h : readImageLine line = .comment) (text : List (List Char)) :
    readImage (line :: text) = readImage text := by
  simp [readImage, h]

theorem readImage_byte {line : List Char} {v : Byte} (h : readImageLine line = .byte v)
    (text : List (List Char)) : readImage (line :: text) = (readImage text).map (v :: ·) := by
  cases hr : readImage text <;> simp [readImage, h, hr]

theorem readImage_malformed {line : List Char} (h : readImageLine line = .malformed)
    (text : List (List Char)) : readImage (line :: text) = none := by
  simp [readImage, h]

/-- What is read from an image is what its lines supply. -/
theorem imageBytes_of_readImage {text : List (List Char)} {bs : List Byte} (h : readImage text = some bs) :
    ImageBytes text bs := by
  induction text generalizing bs with
  | nil => cases h; exact .nil
  | cons line text ih =>
    cases hl : readImageLine line with
    | comment =>
      rw [readImage_comment hl] at h
      exact .blank ((readImageLine_comment_iff line).mp hl) (ih h)
    | byte v =>
      rw [readImage_byte hl] at h
      obtain ⟨bs', hbs, rfl⟩ := Option.map_eq_some_iff.mp h
      exact .literal ((readImageLine_byte_iff line v).mp hl) (ih hbs)
    | malformed =>
      rw [readImage_malformed hl] at h
      cases h

theorem readImage_of_imageBytes {text : List (List Char)} {bs : List Byte} (h : ImageBytes text bs) :
    readImage text = some bs := by
  induction h with
  | nil => rfl
  | blank hl _ ih => rw [readImage_comment ((readImageLine_comment_iff _).mpr hl), ih]
  | literal hl _ ih => rw [readImage_byte ((readImageLine_byte_iff _ _).mpr hl), ih, Option.map_some]

/-- A malformed line anywhere leaves the whole image unread (R153). -/
theorem readImage_mem_malformed {text : List (List Char)} {line : List Char} (hmem : line ∈ text)
    (h : readImageLine line = .malformed) : readImage text = none := by
  induction hmem with
  | head text => exact readImage_malformed h text
  | tail first _ ih =>
    cases hf : readImageLine first with
    | comment => rw [readImage_comment hf, ih]
    | byte v => rw [readImage_byte hf, ih, Option.map_none]
    | malformed => exact readImage_malformed hf _

theorem launchText_of_readImage {text : List (List Char)} {image : List Byte}
    (h : readImage text = some image) (im : Byte) : launchText text im = launch image im := by
  simp [launchText, h]

theorem launchText_unread {text : List (List Char)} (h : readImage text = none) (im : Byte) :
    launchText text im = none := by
  simp [launchText, h]

/-- Settles O49, line by line, then by induction on the lines, then through the launch of what is read. -/
theorem imageTextIsRead : Obligations.ImageTextIsRead := by
  unfold Obligations.ImageTextIsRead
  refine ⟨readImageLine_byte_iff, readImageLine_comment_iff, readImageLine_malformed_iff,
    fun text bs => ⟨imageBytes_of_readImage, readImage_of_imageBytes⟩, ?_, fun text bs im hbs => ?_⟩
  · rintro text im ⟨line, hmem, hline⟩
    exact launchText_unread (readImage_mem_malformed hmem ((readImageLine_malformed_iff line).mpr hline)) im
  · rw [launchText_of_readImage (readImage_of_imageBytes hbs)]
    exact ⟨fun hlong => launch_too_long hlong im,
      fun hfit => ⟨launched bs im, launch_fits hfit im, launchTable_launched hfit im⟩⟩

end Sys2Proof.Machine

/-! ## Memory, the stack primitives and the interrupt frame (spec/20_memory.md R40, R47, R48, spec/60_exceptions.md R136, R137) -/

namespace Sys2Proof.Machine

/-- Settles O50, by the law of one write (`Memory.read_write`) taken twice. -/
theorem readAfterWrite : Obligations.ReadAfterWrite := by
  unfold Obligations.ReadAfterWrite
  intro m a b v w
  refine ⟨?_, fun c hca hcb => ?_⟩
  · rw [Memory.read_write, Memory.read_write_self]
  · rw [Memory.read_write_ne _ _ hcb, Memory.read_write_ne _ _ hca]

/-! ### Push and Pop -/

/-- Push changes SP and the byte at the new SP, and nothing else (R47). -/
theorem onlyChanges_push (s : State) (v : Byte) :
    OnlyChanges [7] [(s.sp - 1#8).toNat] s (s.push v) := by
  refine ⟨fun r hr => ?_, fun a ha => ?_, ⟨rfl, rfl, rfl, rfl⟩, ⟨rfl, rfl⟩, rfl, rfl⟩
  · exact s.getReg_push v (List.ne_of_not_mem_cons hr)
  · rw [State.push_mem, Memory.read_write_ne _ _ (List.ne_of_not_mem_cons ha)]

/-- Pop changes SP and nothing else; the byte stays in memory (R48). -/
theorem onlyChanges_popRest (s : State) : OnlyChanges [7] [] s s.popRest :=
  ⟨fun _ hr => s.getReg_popRest (List.ne_of_not_mem_cons hr), fun _ _ => rfl, ⟨rfl, rfl, rfl, rfl⟩,
    ⟨rfl, rfl⟩, rfl, rfl⟩

/-- Push writes at the SP it leaves (R47). -/
theorem read_push_sp (s : State) (v : Byte) : (s.push v).mem.read (s.push v).sp.toNat = v := by
  rw [State.push_mem, State.push_sp, Memory.read_write_self]

/-- Settles O30, from what each primitive writes and from its frame. -/
theorem pushAndPopPrimitives : Obligations.PushAndPopPrimitives := by
  unfold Obligations.PushAndPopPrimitives
  exact ⟨fun s v => ⟨s.push_sp v, read_push_sp s v, rfl, onlyChanges_push s v⟩,
    fun s => ⟨rfl, s.popRest_sp, rfl, onlyChanges_popRest s⟩⟩

/-! ### A run of pushes -/

theorem sub_ofNat_sub_ofNat (p : Byte) (j k : Nat) :
    p - BitVec.ofNat 8 j - BitVec.ofNat 8 k = p - BitVec.ofNat 8 (j + k) := by
  rw [BitVec.sub_sub, BitVec.ofNat_add]

/-- An address and one from 1 to 255 below it are different, also where the subtraction wraps. -/
theorem toNat_ne_toNat_sub (p : Byte) {k : Nat} (h1 : 1 ≤ k) (h2 : k ≤ 255) :
    p.toNat ≠ (p - BitVec.ofNat 8 k).toNat := by
  rw [BitVec.toNat_sub, BitVec.toNat_ofNat]
  have hp := p.isLt
  omega

/-- Pushing the bytes `vs` writes the `vs.length` addresses below SP, modulo 256, and no other (R47). -/
theorem read_pushes_outside (vs : List Byte) {s : State} {a : Nat}
    (ha : ∀ k : Nat, 1 ≤ k → k ≤ vs.length → a ≠ (s.sp - BitVec.ofNat 8 k).toNat) :
    (vs.foldl State.push s).mem.read a = s.mem.read a := by
  induction vs generalizing s with
  | nil => rfl
  | cons v vs ih =>
    have hlater : ∀ k : Nat, 1 ≤ k → k ≤ vs.length → a ≠ ((s.push v).sp - BitVec.ofNat 8 k).toNat := by
      intro k _ hk
      rw [State.push_sp, sub_ofNat_sub_ofNat s.sp 1 k]
      exact ha (1 + k) (Nat.le_add_right 1 k) (by rw [List.length_cons]; omega)
    have hfirst : a ≠ (s.sp - 1#8).toNat := ha 1 (Nat.le_refl 1) (Nat.le_add_left 1 vs.length)
    rw [List.foldl_cons, ih hlater, State.push_mem, Memory.read_write_ne _ _ hfirst]

/-- Up to 256 bytes pushed stand below SP in the order of the pushes, since no push reaches the slot of an
earlier one (R47). -/
theorem read_pushes_slot (vs : List Byte) {s : State} (hlen : vs.length ≤ 256) (k : Nat)
    (hk : k < vs.length) :
    (vs.foldl State.push s).mem.read (s.sp - BitVec.ofNat 8 (k + 1)).toNat = vs[k] := by
  induction vs generalizing s k with
  | nil => cases hk
  | cons v vs ih =>
    rw [List.length_cons] at hlen hk
    rw [List.foldl_cons]
    cases k with
    | zero =>
      rw [read_pushes_outside vs, State.push_mem]
      · exact Memory.read_write_self _ _ _
      · intro j h1 hj
        rw [State.push_sp]
        exact toNat_ne_toNat_sub (s.sp - 1#8) h1 (by omega)
    | succ k =>
      have hlater := ih (s := s.push v) (by omega) k (Nat.lt_of_succ_lt_succ hk)
      rwa [State.push_sp, sub_ofNat_sub_ofNat s.sp 1 (k + 1), Nat.add_comm 1] at hlater

/-! ### The frame of an interrupt entry -/

/-- The nine bytes an interrupt entry pushes, in their order (R136). -/
def frameBytes (s : State) : List Byte := s.pc :: flByte s.fl :: savedRegs.map s.getReg

theorem pushFrame_eq_pushes (s : State) : pushFrame s = (frameBytes s).foldl State.push s :=
  pushFrame_unfold s

/-- The memory an interrupt entry leaves is that of the nine pushes alone (R136). -/
theorem interruptEntry_mem (i : Fin 8) (s : State) :
    (interruptEntry i s).mem = ((frameBytes s).foldl State.push s).mem := by
  obtain ⟨hmem, -⟩ := interruptEntry_fields i s
  rw [hmem, pushFrame_eq_pushes]

/-- The byte pushed at place `k` stands at SP - (k + 1) (R137). -/
theorem read_interruptEntry_slot (i : Fin 8) (s : State) (k : Nat) (hk : k < 9) :
    (interruptEntry i s).mem.read (s.sp - BitVec.ofNat 8 (k + 1)).toNat = (frameBytes s)[k] := by
  rw [interruptEntry_mem, read_pushes_slot (frameBytes s) (by decide : 9 ≤ 256) k hk]

/-- Every register but SP has its place in the frame, after pc and the FL byte (R136). -/
theorem frameBytes_reg (s : State) {r : Fin 8} (hr : r ≠ 7) :
    (frameBytes s)[r.val + 2]? = some (s.getReg r) := by
  match r with
  | 0 | 1 | 2 | 3 | 4 | 5 | 6 => rfl
  | 7 => exact absurd rfl hr

theorem read_interruptEntry_reg (i : Fin 8) (s : State) {r : Fin 8} (hr : r ≠ 7) :
    (interruptEntry i s).mem.read (s.sp - 3#8 - BitVec.ofNat 8 r.val).toNat = s.getReg r := by
  have hk : r.val + 2 < 9 := by omega
  rw [sub_ofNat_sub_ofNat s.sp 3 r.val, Nat.add_comm 3, read_interruptEntry_slot i s (r.val + 2) hk]
  exact (List.getElem_eq_iff hk).mpr (frameBytes_reg s hr)

/-- An entry writes the nine slots of the frame and no other address (R136, R137). -/
theorem read_interruptEntry_outside (i : Fin 8) (s : State) {a : Nat}
    (ha : ∀ k : Nat, 1 ≤ k → k ≤ 9 → a ≠ (s.sp - BitVec.ofNat 8 k).toNat) :
    (interruptEntry i s).mem.read a = s.mem.read a := by
  rw [interruptEntry_mem]
  exact read_pushes_outside (frameBytes s) ha

/-- An entry clears the IS bit of its own line and no other (R136). -/
theorem interruptEntry_is (i j : Fin 8) (s : State) :
    (interruptEntry i s).is.getLsbD j = (s.is.getLsbD j && decide (j ≠ i)) := by
  obtain ⟨-, -, -, his, -⟩ := interruptEntry_fields i s
  simp [his, lineMask_getLsbD, Fin.ext_iff, -BitVec.getLsbD_eq_getElem]

theorem interruptEntry_irqIn (i : Fin 8) (s : State) : (interruptEntry i s).irqIn = s.irqIn := by
  obtain ⟨-, -, -, -, -, -, -, -, -, -, hirq⟩ := interruptEntry_fields i s
  exact hirq

/-- An entry changes no register but SP (R136). -/
theorem interruptEntry_regs (i : Fin 8) (s : State) : SameRegsBut [7] s (interruptEntry i s) := by
  obtain ⟨-, hreg, -⟩ := interruptEntry_fields i s
  exact fun r hr => (hreg r).trans (pushFrame_getReg s (List.ne_of_not_mem_cons hr))

theorem interruptEntry_sp (i : Fin 8) (s : State) : (interruptEntry i s).sp = s.sp - 9#8 := by
  obtain ⟨-, hreg, -⟩ := interruptEntry_fields i s
  exact (hreg 7).trans (pushFrame_sp s)

/-- Settles O18: the step is the entry from the sampled state, and sampling changes neither SP nor anything the
frame is built from. -/
theorem interruptEntryBuildsFrame : Obligations.InterruptEntryBuildsFrame := by
  unfold Obligations.InterruptEntryBuildsFrame
  intro s i hrs ha
  have hpc := read_interruptEntry_slot i (sampleIrq s) 0 (by decide)
  have hfl := read_interruptEntry_slot i (sampleIrq s) 1 (by decide)
  exact ⟨_, step_entry hrs ha, hpc, hfl, fun _ => read_interruptEntry_reg i _, interruptEntry_sp i _,
    interruptEntry_pc i _, interruptEntry_ic i _, fun j => interruptEntry_is i j _, interruptEntry_fl i _,
    interruptEntry_im i _, interruptEntry_out i _, interruptEntry_run i _, interruptEntry_irqIn i _,
    interruptEntry_regs i _, fun _ => read_interruptEntry_outside i _⟩

end Sys2Proof.Machine

/-! ## Decoding and encoding (spec/30_encoding.md R58 to R64) -/

namespace Sys2Proof

/-! ### The rows of the opcode map

An opcode selects a shape, and the shape alone says how many operand bytes follow and what they make. The two
facts about every instruction and about every row are `encode_cases` and `opcodeTable_encodes`; everything about
the decoder follows from them. -/

/-- A row of the opcode map is found only if it stands in the table. -/
theorem mem_of_lookupOpcode {rows : List (Byte × OpShape)} {b0 : Byte} {sh : OpShape}
    (h : lookupOpcode rows b0 = some sh) : (b0, sh) ∈ rows := by
  induction rows with
  | nil => cases h
  | cons row rows ih =>
    unfold lookupOpcode at h
    split at h
    · next heq =>
      cases h
      exact heq ▸ List.mem_cons_self
    · exact List.mem_cons_of_mem _ (ih h)

theorem lookupOpcode_eq_none_iff {rows : List (Byte × OpShape)} {b0 : Byte} :
    lookupOpcode rows b0 = none ↔ b0 ∉ rows.map Prod.fst := by
  induction rows with
  | nil => simp [lookupOpcode]
  | cons row rows ih => by_cases h : b0 = row.1 <;> simp [lookupOpcode, h, ih]

/-- The listed opcodes are the keys of the opcode map (R62). -/
theorem listedOpcodes_eq_keys :
    Machine.listedOpcodes = (opcodeTable.map Prod.fst).map BitVec.toNat := rfl

/-- The decoder's table has no row exactly for the bytes that are not listed (R63). -/
theorem lookupOpcode_none_iff_unlisted (b0 : Byte) :
    lookupOpcode opcodeTable b0 = none ↔ b0.toNat ∉ Machine.listedOpcodes := by
  rw [lookupOpcode_eq_none_iff, listedOpcodes_eq_keys,
    List.mem_map_of_injective BitVec.toNat_injective]

/-! ### Operand bytes -/

/-- The number of operand bytes of a shape (R61). -/
def OpShape.operandCount : OpShape → Nat
  | .z _ => 0
  | .r _ => 1
  | .ri _ | .rr _ => 2

theorem OpShape.operandCount_le (sh : OpShape) : sh.operandCount ≤ 2 := by
  cases sh <;> simp [operandCount]

/-- What the decoder does with the bytes after an opcode of this shape (R61, R71). -/
def OpShape.readOperands : OpShape → List Byte → Except DecodeError (Instr × List Byte)
  | .z i, rest => .ok (i, rest)
  | .r mk, b1 :: rest => .ok (mk b1, rest)
  | .r _, [] => .error (.operandMissing 1)
  | .ri mk, b1 :: b2 :: rest | .rr mk, b1 :: b2 :: rest => .ok (mk b1 b2, rest)
  | .ri _, [_] | .rr _, [_] => .error (.operandMissing 2)
  | .ri _, [] | .rr _, [] => .error (.operandMissing 1)

/-- A shape with enough bytes makes an instruction of them, and with fewer it misses an operand byte (R71). -/
theorem OpShape.readOperands_cases (sh : OpShape) (bs : List Byte) :
    (∃ i rest, sh.readOperands bs = .ok (i, rest) ∧ sh.operandCount ≤ bs.length) ∨
      (∃ k, sh.readOperands bs = .error (.operandMissing k) ∧ bs.length < sh.operandCount) := by
  cases sh with
  | z i => exact .inl ⟨i, bs, rfl, Nat.zero_le _⟩
  | r mk =>
    match bs with
    | [] => exact .inr ⟨1, rfl, Nat.zero_lt_succ _⟩
    | b1 :: rest => exact .inl ⟨mk b1, rest, rfl, by simp [operandCount]⟩
  | ri mk | rr mk =>
    match bs with
    | [] => exact .inr ⟨1, rfl, Nat.zero_lt_succ _⟩
    | [_] => exact .inr ⟨2, rfl, Nat.lt_add_one _⟩
    | b1 :: b2 :: rest => exact .inl ⟨mk b1 b2, rest, rfl, by simp [operandCount]⟩

/-- A byte that selects no row is rejected, whatever follows it (R63). -/
theorem decode_of_lookup_none {b0 : Byte} (h : lookupOpcode opcodeTable b0 = none) (rest : List Byte) :
    decode (b0 :: rest) = .error (.unsupported b0) := by
  simp only [decode, h]

/-- A byte that selects a row is decoded by the row's shape (R61, R71). -/
theorem decode_of_lookup_some {b0 : Byte} {sh : OpShape} (h : lookupOpcode opcodeTable b0 = some sh)
    (rest : List Byte) : decode (b0 :: rest) = sh.readOperands rest := by
  simp only [decode, h]
  cases sh with
  | z i => rfl
  | r mk => cases rest <;> rfl
  | ri mk | rr mk => match rest with | [] | [_] | _ :: _ :: _ => rfl

/-! ### The round trip (R58, R61, R62) -/

/-- Each instruction is encoded as an opcode that selects a shape, and the operand bytes from which the shape
makes it again (R61, R62). -/
theorem encode_cases (i : Instr) :
    ∃ b0 sh ops, encode i = b0 :: ops ∧ lookupOpcode opcodeTable b0 = some sh ∧
      ops.length = sh.operandCount ∧ ∀ rest, sh.readOperands (ops ++ rest) = .ok (i, rest) := by
  cases i <;> exact ⟨_, _, _, rfl, rfl, rfl, fun _ => rfl⟩

/-- A row of the opcode map agrees with the encoder: what its shape makes of operand bytes is encoded as the row's
opcode and those bytes (R61). -/
def RowEncodes : Byte × OpShape → Prop
  | (b0, .z i) => encode i = [b0]
  | (b0, .r mk) => ∀ a, encode (mk a) = [b0, a]
  | (b0, .ri mk) | (b0, .rr mk) => ∀ a b, encode (mk a b) = [b0, a, b]

theorem opcodeTable_encodes : ∀ row ∈ opcodeTable, RowEncodes row := by
  simp [opcodeTable, RowEncodes, encode]

theorem RowEncodes.eq_of_readOperands {b0 : Byte} {sh : OpShape} {bs rest : List Byte} {i : Instr}
    (h : RowEncodes (b0, sh)) (hread : sh.readOperands bs = .ok (i, rest)) : b0 :: bs = encode i ++ rest := by
  cases sh with
  | z _ =>
    cases hread
    rw [show encode i = [b0] from h]
    rfl
  | r mk =>
    match bs, hread with
    | b1 :: _, rfl => rw [show encode (mk b1) = [b0, b1] from h b1]; rfl
  | ri mk | rr mk =>
    match bs, hread with
    | b1 :: b2 :: _, rfl => rw [show encode (mk b1 b2) = [b0, b1, b2] from h b1 b2]; rfl

/-- Decoding an encoded instruction gives it back, and leaves the bytes behind it (R58). -/
theorem decode_encode_append (i : Instr) (rest : List Byte) : decode (encode i ++ rest) = .ok (i, rest) := by
  obtain ⟨b0, sh, ops, henc, hsh, -, hread⟩ := encode_cases i
  rw [henc, List.cons_append, decode_of_lookup_some hsh, hread]

/-- Bytes that decode to an instruction are its encoding and the bytes left over (R58). -/
theorem eq_encode_append_of_decode {bs rest : List Byte} {i : Instr} (h : decode bs = .ok (i, rest)) :
    bs = encode i ++ rest := by
  cases bs with
  | nil => cases h
  | cons b0 bs =>
    cases hsh : lookupOpcode opcodeTable b0 with
    | none =>
      rw [decode_of_lookup_none hsh] at h
      cases h
    | some sh =>
      rw [decode_of_lookup_some hsh] at h
      exact (opcodeTable_encodes _ (mem_of_lookupOpcode hsh)).eq_of_readOperands h

/-- Settles O1: an instruction's opcode selects the shape that makes it of its operand bytes, and every row of
the opcode map agrees with the encoder. -/
theorem decodeAndEncodeAgree : Obligations.DecodeAndEncodeAgree :=
  ⟨decode_encode_append, fun _ _ _ => eq_encode_append_of_decode⟩

/-! ### Unlisted opcodes and missing operand bytes (R63, R71) -/

/-- A selected row never answers that the opcode is unsupported (R63). -/
theorem OpShape.readOperands_ne_unsupported (sh : OpShape) (bs : List Byte) (b0 : Byte) :
    sh.readOperands bs ≠ .error (.unsupported b0) := by
  rcases sh.readOperands_cases bs with ⟨i, rest, e, -⟩ | ⟨k, e, -⟩ <;> simp [e]

theorem decode_unsupported_iff (b0 : Byte) (rest : List Byte) :
    decode (b0 :: rest) = .error (.unsupported b0) ↔ lookupOpcode opcodeTable b0 = none := by
  cases hsh : lookupOpcode opcodeTable b0 with
  | none => simp [decode_of_lookup_none hsh]
  | some sh => simp [decode_of_lookup_some hsh, sh.readOperands_ne_unsupported]

/-- An instruction's opcode with fewer bytes behind it than its operands misses an operand byte (R71). -/
theorem decode_truncated {i : Instr} {b0 : Byte} {bs : List Byte} (hop : (encode i).head? = some b0)
    (hlen : bs.length + 1 < (encode i).length) : ∃ k, decode (b0 :: bs) = .error (.operandMissing k) := by
  obtain ⟨b, sh, ops, henc, hsh, hops, -⟩ := encode_cases i
  rw [henc] at hop hlen
  cases hop
  rw [decode_of_lookup_some hsh]
  rcases sh.readOperands_cases bs with ⟨-, -, -, hle⟩ | ⟨k, e, -⟩
  · rw [List.length_cons] at hlen
    omega
  · exact ⟨k, e⟩

/-- An instruction is at most three bytes long (R6, R58). -/
theorem encode_length_le (i : Instr) : (encode i).length ≤ Config.maxInstrBytes := by
  obtain ⟨b0, sh, ops, henc, -, hops, -⟩ := encode_cases i
  rw [henc, List.length_cons, hops]
  exact Nat.succ_le_succ sh.operandCount_le

/-- Settles O3: a byte is rejected exactly where the opcode map has no row for it, whose keys are the listed
opcodes. -/
theorem onlyListedOpcodesDecode : Obligations.OnlyListedOpcodesDecode := fun b0 rest =>
  (decode_unsupported_iff b0 rest).trans (lookupOpcode_none_iff_unlisted b0)

/-- Settles O2, by running the decoder on each word. -/
theorem writtenOutWordsDecode : Obligations.WrittenOutWordsDecode :=
  ⟨rfl, rfl, rfl, rfl, rfl, rfl, rfl⟩

end Sys2Proof

/-! ## The instruction of a step (spec/30_encoding.md R67 to R76) -/

namespace Sys2Proof.Machine

/-! ### Fetching (R70, R71) -/

section Fetch

variable {s : State}

theorem fetchInstr_of_decode_ok {i : Instr} {rest : List Byte} (h : decode (fetchBytes s) = .ok (i, rest)) :
    fetchInstr s = .ok i := by
  simp only [fetchInstr, h]

theorem fetchInstr_of_decode_error {e : DecodeError} (h : decode (fetchBytes s) = .error e) :
    fetchInstr s = .error (fetchErrorKind e) := by
  simp only [fetchInstr, h]

/-- An instruction that stands at pc is fetched, whatever stands behind it (R70, R71). -/
theorem decode_fetchBytes_of_bytesAtPc {i : Instr} (h : BytesAtPc (encode i) s) :
    ∃ rest, decode (fetchBytes s) = .ok (i, rest) := by
  obtain ⟨hfits, hbytes⟩ := h
  exact ⟨_, by rw [fetchBytes, bytesFrom_prefix _ _ _ _ (encode_length_le i) hfits hbytes, decode_encode_append]⟩

/-- No byte is fetched from above 0xFF (R41, R71). -/
theorem bytesFrom_length_le (m : Memory) (a n : Nat) : (bytesFrom m a n).length ≤ 256 - a := by
  induction n generalizing a with
  | zero => exact Nat.zero_le _
  | succ n ih =>
    by_cases h : a ≤ 0xFF
    · have := ih (a + 1)
      rw [bytesFrom_succ h, List.length_cons]
      omega
    · rw [bytesFrom_past (Nat.not_le.mp h)]
      exact Nat.zero_le _

/-- An unlisted opcode at pc fails the fetch with UnsupportedOperationError (R63, R64). -/
theorem fetchInstr_unlisted (h : (s.mem.read s.pc.toNat).toNat ∉ listedOpcodes) :
    fetchInstr s = .error .unsupportedOperationError :=
  fetchInstr_of_decode_error <| by
    rw [fetchBytes_cons, decode_of_lookup_none ((lookupOpcode_none_iff_unlisted _).mpr h)]

/-- Operand bytes that would pass 0xFF fail the fetch with AddressError (R71, R123 (a)). -/
theorem fetchInstr_past {i : Instr} (hop : (encode i).head? = some (s.mem.read s.pc.toNat))
    (hp : 256 < s.pc.toNat + (encode i).length) : fetchInstr s = .error .addressError := by
  have hlen := bytesFrom_length_le s.mem (s.pc.toNat + 1) 2
  have hpc : s.pc.toNat < 256 := s.pc.isLt
  obtain ⟨k, hk⟩ := decode_truncated (bs := bytesFrom s.mem (s.pc.toNat + 1) 2) hop (by omega)
  rw [← fetchBytes_cons] at hk
  exact fetchInstr_of_decode_error hk

/-! ### The step at an instruction (R67 (c), R74, R129) -/

theorem step_of_fetch_ok {i : Instr} (hat : AtInstruction s) (h : fetchInstr (sampleIrq s) = .ok i) :
    step s = exec i (sampleIrq s) := by
  simp only [step_instr hat, stepInstr, h]

/-- A fetch that fails halts the machine by its fatal error (R70, R71, R129). -/
theorem step_of_fetch_error {k : FatalKind} (hat : AtInstruction s)
    (h : fetchInstr (sampleIrq s) = .error k) : ∃ t, step s = .next t ∧ HaltedBy k (sampleIrq s) t :=
  ⟨_, by simp only [step_instr hat, stepInstr, h], haltedBy_fatalHalt k _⟩

end Fetch

/-- Settles O4: a Halted machine neither samples nor fetches. -/
theorem haltedStepChangesNothing : Obligations.HaltedStepChangesNothing := fun _ => step_halted

/-- Settles O5: the fetch gives the decoded instruction, and the step is its rule. -/
theorem stepRunsDecodedInstruction : Obligations.StepRunsDecodedInstruction := fun _ _ _ hat h =>
  step_of_fetch_ok hat (fetchInstr_of_decode_ok h)

/-- Settles O6: the fetch reads the encoding and perhaps bytes behind it, which decoding leaves over; sampling
writes neither memory nor pc. -/
theorem placedInstructionRuns : Obligations.PlacedInstructionRuns := by
  intro s i hat h
  obtain ⟨rest, hdec⟩ := decode_fetchBytes_of_bytesAtPc (s := sampleIrq s) h
  exact stepRunsDecodedInstruction s i rest hat hdec

/-- Settles O7: the opcode alone fails the fetch. -/
theorem unlistedOpcodeHalts : Obligations.UnlistedOpcodeHalts := fun _ hat h =>
  step_of_fetch_error hat (fetchInstr_unlisted h)

/-- Settles O8: memory ends before the operand bytes that the opcode asks for. -/
theorem operandFetchPastTopHalts : Obligations.OperandFetchPastTopHalts := fun _ _ hat hop hp =>
  step_of_fetch_error hat (fetchInstr_past hop hp)

/-- Settles O15: sampling writes IS and irqIn alone. -/
theorem samplingOrsTheDraw : Obligations.SamplingOrsTheDraw := by
  intro s d ds hirq
  have hdraw : irqDraw s = d := by rw [irqDraw, hirq, List.headD_cons]
  refine ⟨fun j => ?_, ?_, rfl, rfl, rfl, rfl, rfl, rfl, ⟨rfl, rfl⟩, fun _ _ => rfl⟩
  · rw [sampleIrq_is, hdraw, BitVec.getLsbD_or]
  · rw [sampleIrq_irqIn, hirq, List.tail_cons]

/-! ### Fatal errors of an instruction (spec/60_exceptions.md R124, R129, R130) -/

/-- A register operand byte above 7 raises RegisterError, whatever the register rule is (R124, R130). -/
theorem onReg_not_wellFormed {a : Byte} (h : ∃ b ∈ [a], 8 ≤ b.toNat) (k : Fin 8 → Tx) :
    onReg a k = .error .registerError :=
  onReg_error (by simpa using h) k

theorem onRegs_not_wellFormed {a b : Byte} (h : ∃ c ∈ [a, b], 8 ≤ c.toNat) (k : Fin 8 → Fin 8 → Tx) :
    onRegs a b k = .error .registerError :=
  onRegs_error (by simpa using h) k

/-- Settles O9, by the operand form of the instruction: a form with register operands checks them before anything
else, and one without is well formed. -/
theorem badRegisterOperandHalts : Obligations.BadRegisterOperandHalts := by
  intro s i hw
  have hbad := (not_wellFormed_iff i).mp hw
  cases i with
  | nop | hlt | ret | iret => cases hw
  | push a | pop a | prn a | pra a | call a | int a | jmp a | jeq a | jne a | jgt a | jlt a | jle a | jge a
  | inc a | dec a | not a | ldi a imm => exact commit_halts (onReg_not_wellFormed hbad _)
  | ld a b | st a b | add a b | sub a b | mul a b | div a b | mod a b | cmp a b | and a b | or a b | xor a b
  | shl a b | shr a b => exact commit_halts (onRegs_not_wellFormed hbad _)

/-- A step of a Running machine that leaves a fatal record is the fatal halt of the sampled state: an entry and
an instruction's effect leave no such record (R31, R127, R129). -/
theorem step_fatal {s t : State} {k : FatalKind} {p : Byte} (hrs : s.rs = .running) (hhr : s.hr = .none)
    (h : step s = .next t) (hfatal : t.hr = .fatal k p) :
    ∃ e, e ≠ .stackImbalanceError ∧ t = fatalHalt e (sampleIrq s) := by
  have hnot : ¬ SameRun (sampleIrq s) t := by
    rintro ⟨-, hsame⟩
    rw [hfatal, sampleIrq_hr, hhr] at hsame
    cases hsame
  rcases step_next_cases h with ⟨hhalted, -⟩ | ⟨-, i, -, rfl⟩ | ⟨-, e, hf, rfl⟩ | ⟨-, i, -, hex⟩
  · rw [hrs] at hhalted
    cases hhalted
  · exact absurd (interruptEntry_run i _) hnot
  · exact ⟨e, fetchInstr_error_kind hf, rfl⟩
  · rcases exec_run hex with hrun | ⟨-, -, hnormal⟩ | hhalt
    · exact absurd hrun hnot
    · rw [hfatal] at hnormal
      cases hnormal
    · exact hhalt

/-- The status codes of the errors this hardware raises (R122, R127). -/
theorem statusCode_fatal_cases {k : FatalKind} (hk : k ≠ .stackImbalanceError) (p : Byte) :
    (k = .addressError ∧ statusCode (.fatal k p) = some 1) ∨
      (k = .registerError ∧ statusCode (.fatal k p) = some 2) ∨
      (k = .divideByZeroError ∧ statusCode (.fatal k p) = some 3) ∨
      (k = .unsupportedOperationError ∧ statusCode (.fatal k p) = some 4) := by
  cases k <;> simp [statusCode, kindCode] at hk ⊢

/-- Settles O13: the step is a fatal halt, whose record names its own kind and the pc of the opcode. -/
theorem fatalErrorCommitsNothing : Obligations.FatalErrorCommitsNothing := by
  intro s t k p hrs hhr h hfatal
  obtain ⟨e, he, rfl⟩ := step_fatal hrs hhr h hfatal
  cases hfatal
  exact ⟨rfl, haltedBy_fatalHalt k _, statusCode_fatal_cases he _⟩

end Sys2Proof.Machine

/-! ## Machine control (spec/40_machine_control.md R81, R82) -/

namespace Sys2Proof.Machine

/-- Writing pc changes no register, no memory and nothing else that a frame speaks of. -/
theorem onlyChanges_setPc (s : State) (v : Byte) : OnlyChanges [] [] s (s.setPc v) :=
  ⟨fun _ _ => rfl, fun _ _ => rfl, ⟨rfl, rfl, rfl, rfl⟩, ⟨rfl, rfl⟩, rfl, rfl⟩

/-- Where the next instruction's address fits in a byte, a transaction that ends by advancing over `n + 1` bytes
moves pc by as many, without wrapping, and changes nothing else of what it has built (R72). -/
theorem commit_advance {n : Nat} {s : State} (h : s.pc.toNat + (n + 1) ≤ 0xFF) (t : State) :
    ∃ u, commit s (advance n s t) = .next u ∧ u.pc.toNat = s.pc.toNat + (n + 1) ∧ OnlyChanges [] [] t u := by
  refine ⟨_, by rw [advance_ok (by omega), commit_ok], ?_, onlyChanges_setPc t _⟩
  rw [State.setPc_pc, BitVec.toNat_ofNat]
  omega

/-- HLT has no way to fail: it halts the machine and does not advance (R81). -/
theorem exec_hlt (s : State) : exec .hlt s = .next (s.halt .normal) := rfl

/-- NOP is an advance over its one byte (R82). -/
theorem exec_nop (s : State) : exec .nop s = commit s (advance 0 s s) := rfl

/-- Settles O23: HLT leaves the normal halt of the starting state, which keeps every other field. -/
theorem hltHalts : Obligations.HltHalts := by
  unfold Obligations.HltHalts
  exact fun s => ⟨s.halt .normal, exec_hlt s, rfl, rfl, rfl, fun _ _ => rfl, rfl, ⟨rfl, rfl, rfl, rfl⟩, rfl, rfl⟩

/-- Settles O24, by whether the advance over one byte stays within 0xFF. -/
theorem nopOnlyAdvances : Obligations.NopOnlyAdvances := by
  unfold Obligations.NopOnlyAdvances
  intro s
  rw [exec_nop]
  constructor
  · intro hbelow
    exact commit_advance hbelow s
  · intro htop
    have hpast : 0xFF < s.pc.toNat + (0 + 1) := by omega
    exact commit_halts (advance_past hpast s)

end Sys2Proof.Machine

/-! ## Load, store and console output (spec/41_load_store_io.md R83 to R88) -/

namespace Sys2Proof.Machine

/-! ### Frames of one write -/

/-- A change that leaves everything but pc keeps the frame of what came before it. -/
theorem OnlyChanges.then_pc {rs : List (Fin 8)} {as : List Nat} {s t u : State} (h : OnlyChanges rs as s t)
    (hpc : OnlyChanges [] [] t u) : OnlyChanges rs as s u := by
  obtain ⟨hreg, hmem, ⟨him, his, hic, hirq⟩, ⟨hrs, hhr⟩, hfl, hout⟩ := h
  obtain ⟨hreg', hmem', ⟨him', his', hic', hirq'⟩, ⟨hrs', hhr'⟩, hfl', hout'⟩ := hpc
  exact ⟨fun r hr => (hreg' r List.not_mem_nil).trans (hreg r hr),
    fun a ha => (hmem' a List.not_mem_nil).trans (hmem a ha),
    ⟨him'.trans him, his'.trans his, hic'.trans hic, hirq'.trans hirq⟩, ⟨hrs'.trans hrs, hhr'.trans hhr⟩,
    hfl'.trans hfl, hout'.trans hout⟩

/-- A register write changes that register and nothing else (R10, R20). -/
theorem onlyChanges_setReg (s : State) (r : Fin 8) (v : Byte) : OnlyChanges [r] [] s (s.setReg r v) :=
  ⟨fun _ hq => s.getReg_setReg_ne v (List.ne_of_not_mem_cons hq), fun _ _ => rfl, ⟨rfl, rfl, rfl, rfl⟩,
    ⟨rfl, rfl⟩, rfl, rfl⟩

/-- A store changes the byte at its address and nothing else (R11, R40). -/
theorem onlyChanges_store (s : State) (a v : Byte) : OnlyChanges [] [a.toNat] s (s.store a v) :=
  ⟨fun _ _ => rfl, fun _ hb => Memory.read_write_ne s.mem v (List.ne_of_not_mem_cons hb),
    ⟨rfl, rfl, rfl, rfl⟩, ⟨rfl, rfl⟩, rfl, rfl⟩

/-! ### The instructions on the registers that their operands name (R60) -/

section Named

variable {s : State} {a b : Byte} {ra rb : Fin 8}

theorem exec_ldi (ha : NamesReg a ra) (imm : Byte) :
    exec (.ldi a imm) s = commit s (advance 2 s (s.setReg ra imm)) :=
  congrArg (commit s) (onReg_of_toNat ha _)

theorem exec_ld (ha : NamesReg a ra) (hb : NamesReg b rb) :
    exec (.ld a b) s = commit s (advance 2 s (s.setReg ra (s.mem.read (s.getReg rb).toNat))) :=
  congrArg (commit s) (onRegs_of_toNat ha hb _)

theorem exec_st (ha : NamesReg a ra) (hb : NamesReg b rb) :
    exec (.st a b) s = commit s (advance 2 s (s.store (s.getReg ra) (s.getReg rb))) :=
  congrArg (commit s) (onRegs_of_toNat ha hb _)

theorem exec_prn (ha : NamesReg a ra) :
    exec (.prn a) s = commit s (advance 1 s (s.emit (.dec (s.getReg ra)))) :=
  congrArg (commit s) (onReg_of_toNat ha _)

theorem exec_pra (ha : NamesReg a ra) :
    exec (.pra a) s = commit s (advance 1 s (s.emit (.chr (s.getReg ra)))) :=
  congrArg (commit s) (onReg_of_toNat ha _)

end Named

/-! ### Loads and the store (R83, R84, R85) -/

/-- An instruction that writes one register and advances over `n + 1` bytes has the shape of `WritesReg`, where
the address after it fits in a byte (R72). -/
theorem writesReg_of_exec_eq {i : Instr} {ra : Fin 8} {v : Byte} {n : Nat} {s : State}
    (h : exec i s = commit s (advance n s (s.setReg ra v))) (hp : s.pc.toNat + (n + 1) ≤ 0xFF) :
    WritesReg i ra v (n + 1) s := by
  obtain ⟨t, ht, hpc, honly⟩ := commit_advance hp (s.setReg ra v)
  have ⟨hregs, _⟩ := honly
  have hreg : t.getReg ra = v := (hregs ra List.not_mem_nil).trans (s.getReg_setReg_self ra v)
  exact ⟨t, h.trans ht, hreg, hpc, (onlyChanges_setReg s ra v).then_pc honly⟩

/-- Settles O25: LDI is a register write with the immediate byte. -/
theorem ldiLoadsTheImmediate : Obligations.LdiLoadsTheImmediate := fun _ _ imm _ ha hp =>
  writesReg_of_exec_eq (exec_ldi ha imm) hp

/-- Settles O26: LD is a register write with a byte that is read before the write, so A may be B. -/
theorem ldLoadsTheByte : Obligations.LdLoadsTheByte := fun _ _ _ _ _ ha hb hp =>
  writesReg_of_exec_eq (exec_ld ha hb) hp

/-- Settles O27, from the store's own frame and what a read gives after it. -/
theorem stStoresTheByte : Obligations.StStoresTheByte := by
  unfold Obligations.StStoresTheByte
  intro s a b ra rb ha hb hp
  obtain ⟨t, ht, hpc, honly⟩ := commit_advance (n := 2) hp (s.store (s.getReg ra) (s.getReg rb))
  have ⟨_, hmem, _⟩ := honly
  have hbyte : t.mem.read (s.getReg ra).toNat = s.getReg rb :=
    (hmem _ List.not_mem_nil).trans (Memory.read_write_self _ _ _)
  exact ⟨t, (exec_st ha hb).trans ht, hbyte, hpc, (onlyChanges_store s _ _).then_pc honly⟩

/-! ### Console output (R86, R87) -/

/-- An instruction that emits one event and advances over its two bytes appends the event to OUT, moves pc and
changes nothing else (R14, R72). -/
theorem appends_of_exec_eq {i : Instr} {e : OutEvent} {s : State}
    (h : exec i s = commit s (advance 1 s (s.emit e))) (hp : s.pc.toNat + 2 ≤ 0xFF) :
    ∃ t, exec i s = .next t ∧ t.out = s.out ++ [e] ∧ t.pc.toNat = s.pc.toNat + 2 ∧
      SameRegsBut [] s t ∧ SameMemoryBut [] s t ∧ SameInterrupts s t ∧ SameRun s t ∧ t.fl = s.fl := by
  obtain ⟨t, ht, hpc, hreg, hmem, hint, hrun, hfl, hout⟩ := commit_advance (n := 1) hp (s.emit e)
  exact ⟨t, h.trans ht, hout, hpc, hreg, hmem, hint, hrun, hfl⟩

/-- Settles O28: PRN and PRA differ in the event alone. -/
theorem prnAndPraAppendOneEvent : Obligations.PrnAndPraAppendOneEvent := by
  unfold Obligations.PrnAndPraAppendOneEvent
  intro s a ra ha hp p hmem
  rcases List.mem_pair.mp hmem with rfl | rfl
  · exact appends_of_exec_eq (exec_prn ha) hp
  · exact appends_of_exec_eq (exec_pra ha) hp

/-! ### Rendering (R88) -/

/-- A number has one, two or, from 100 on, three decimal digits. -/
theorem decimalDigits_cases (n : Nat) :
    (n < 10 ∧ decimalDigits n = [n]) ∨ (10 ≤ n ∧ n < 100 ∧ decimalDigits n = [n / 10, n % 10]) ∨
      (100 ≤ n ∧ decimalDigits n = [n / 100, n / 10 % 10, n % 10]) := by
  unfold decimalDigits
  split
  · next h => exact .inl ⟨h, rfl⟩
  · next h =>
    split
    · next h' => exact .inr (.inl ⟨Nat.not_lt.mp h, h', rfl⟩)
    · next h' => exact .inr (.inr ⟨Nat.not_lt.mp h', rfl⟩)

/-- The digits are the decimal numeral of the number. -/
theorem decimalDigits_value (n : Nat) : (decimalDigits n).foldl (fun acc d => 10 * acc + d) 0 = n := by
  rcases decimalDigits_cases n with ⟨-, e⟩ | ⟨-, -, e⟩ | ⟨-, e⟩ <;> simp only [e, List.foldl] <;> omega

theorem decimalDigits_lt_ten {n : Nat} (hn : n < 1000) : ∀ d ∈ decimalDigits n, d < 10 := by
  rcases decimalDigits_cases n with ⟨h, e⟩ | ⟨-, h, e⟩ | ⟨-, e⟩ <;> simp [e] <;> omega

theorem decimalDigits_ne_nil (n : Nat) : decimalDigits n ≠ [] := by
  rcases decimalDigits_cases n with ⟨-, e⟩ | ⟨-, -, e⟩ | ⟨-, e⟩ <;> simp [e]

/-- A numeral of more than one digit does not begin with 0. -/
theorem decimalDigits_no_leading_zero {n : Nat} (hlen : 1 < (decimalDigits n).length) :
    (decimalDigits n).head? ≠ some 0 := by
  rcases decimalDigits_cases n with ⟨-, e⟩ | ⟨h, -, e⟩ | ⟨h, e⟩
  · rw [e] at hlen
    exact absurd hlen (Nat.lt_irrefl 1)
  · rw [e, List.head?_cons, ne_eq, Option.some_inj]
    omega
  · rw [e, List.head?_cons, ne_eq, Option.some_inj]
    omega

/-- Settles O29 with the digits that `renderEvent` writes; a byte has at most three. -/
theorem consoleEventsRender : Obligations.ConsoleEventsRender := by
  unfold Obligations.ConsoleEventsRender
  refine ⟨fun v => ?_, fun _ => rfl⟩
  have hv : v.toNat < 1000 := by omega
  exact ⟨decimalDigits v.toNat, rfl, decimalDigits_value _, decimalDigits_lt_ten hv, decimalDigits_ne_nil _,
    decimalDigits_no_leading_zero⟩

end Sys2Proof.Machine

/-! ## Stack instructions (spec/42_stack.md R89, R90) -/

namespace Sys2Proof.Machine

/-! ### The instructions on the register that their operand names (R60) -/

section Named

variable {s : State} {a : Byte} {ra : Fin 8}

theorem exec_push (ha : NamesReg a ra) : exec (.push a) s = commit s (advance 1 s (s.push (s.getReg ra))) :=
  congrArg (commit s) (onReg_of_toNat ha _)

theorem exec_pop (ha : NamesReg a ra) : exec (.pop a) s = commit s (advance 1 s (popReg s ra)) :=
  congrArg (commit s) (onReg_of_toNat ha _)

end Named

/-! ### PUSH and POP (R89, R90) -/

/-- A pop into a register changes that register and SP, and nothing else (R48, R90). -/
theorem onlyChanges_popReg (s : State) (r : Fin 8) : OnlyChanges [r, 7] [] s (popReg s r) :=
  ⟨fun _ hq => popReg_getReg_ne s (List.ne_of_not_mem_cons (List.not_mem_of_not_mem_cons hq))
      (List.ne_of_not_mem_cons hq),
    fun _ _ => rfl, ⟨rfl, rfl, rfl, rfl⟩, ⟨rfl, rfl⟩, rfl, rfl⟩

/-- Settles O31, from what Push writes and from its frame; the register is read before the push. -/
theorem pushStoresTheRegister : Obligations.PushStoresTheRegister := by
  unfold Obligations.PushStoresTheRegister
  intro s a ra ha hp
  obtain ⟨t, ht, hpc, honly⟩ := commit_advance (n := 1) hp (s.push (s.getReg ra))
  have ⟨hregs, hmem, _⟩ := honly
  have hsp : t.sp = s.sp - 1#8 := (hregs 7 List.not_mem_nil).trans (s.push_sp _)
  have hslot : t.mem.read (s.sp - 1#8).toNat = s.getReg ra :=
    (hmem _ List.not_mem_nil).trans (Memory.read_write_self _ _ _)
  exact ⟨t, (exec_push ha).trans ht, hsp, hslot, hpc, (onlyChanges_push s _).then_pc honly⟩

/-- Settles O32: the register is written after SP is raised, so POP R7 keeps the popped byte. -/
theorem popLoadsTheRegister : Obligations.PopLoadsTheRegister := by
  unfold Obligations.PopLoadsTheRegister
  intro s a ra ha hp
  obtain ⟨t, ht, hpc, honly⟩ := commit_advance (n := 1) hp (popReg s ra)
  have ⟨hregs, _⟩ := honly
  have hreg : t.getReg ra = s.mem.read s.sp.toNat :=
    (hregs ra List.not_mem_nil).trans (popReg_getReg_self s ra)
  have hsp (h7 : ra ≠ 7) : t.sp = s.sp + 1#8 := (hregs 7 List.not_mem_nil).trans (popReg_sp s h7)
  exact ⟨t, (exec_pop ha).trans ht, hreg, hsp, hpc, (onlyChanges_popReg s ra).then_pc honly⟩

/-! ### The round trip (R89, R90) -/

/-- Settles O33 from O31 and O32: the POP reads the slot that the PUSH wrote. The named register is what is read
there, SP has gone down and up again, and both frames keep every other register. -/
theorem pushThenPopRestores : Obligations.PushThenPopRestores := by
  unfold Obligations.PushThenPopRestores
  intro s a ra ha hp
  obtain ⟨t, ht, htsp, hslot, htpc, hpushRegs, _⟩ := pushStoresTheRegister s a ra ha (by omega)
  obtain ⟨u, hu, hreg, husp, _, hpopRegs, _⟩ := popLoadsTheRegister t a ra ha (by omega)
  refine ⟨t, u, ht, hu, fun r => ?_⟩
  by_cases hra : r = ra
  · rw [hra, hreg, htsp, hslot]
  by_cases h7 : r = 7
  · have husp' : u.sp = s.sp := by rw [husp (h7 ▸ Ne.symm hra), htsp, BitVec.sub_add_cancel]
    rw [h7]
    exact husp'
  · have hpush : t.getReg r = s.getReg r := hpushRegs r (by simp [h7])
    have hpop : u.getReg r = t.getReg r := hpopRegs r (by simp [hra, h7])
    exact hpop.trans hpush

end Sys2Proof.Machine

/-! ## Control transfer (spec/43_control_transfer.md R91 to R100) -/

namespace Sys2Proof.Machine

/-! ### The instructions on the register that their operand names (R60) -/

section Named

variable {s : State} {a : Byte} {ra : Fin 8}

/-- Where the return address fits in a byte, CALL pushes it and takes pc from the register as it was before the
push (R91). -/
theorem exec_call (ha : NamesReg a ra) (hp : s.pc.toNat + 2 ≤ 0xFF) :
    exec (.call a) s = .next ((s.push (BitVec.ofNat 8 (s.pc.toNat + 2))).setPc (s.getReg ra)) := by
  have hfits : ¬ seqAddr 1 s > Config.topAddr := Nat.not_lt.mpr hp
  calc exec (.call a) s
    _ = commit s (if seqAddr 1 s > Config.topAddr then .error .addressError
          else .ok ((s.push (BitVec.ofNat 8 (s.pc.toNat + 2))).setPc (s.getReg ra))) :=
      congrArg (commit s) (onReg_of_toNat ha _)
    _ = .next ((s.push (BitVec.ofNat 8 (s.pc.toNat + 2))).setPc (s.getReg ra)) :=
      congrArg (commit s) (if_neg hfits)

/-- RET has no operand and no way to fail (R92). -/
theorem exec_ret (s : State) : exec .ret s = .next (s.popRest.setPc s.popValue) := rfl

/-- JMP needs no address after it, so with a valid operand it has no way to fail (R93). -/
theorem exec_jmp (ha : NamesReg a ra) : exec (.jmp a) s = .next (s.setPc (s.getReg ra)) :=
  congrArg (commit s) (onReg_of_toNat ha _)

/-- A conditional jump on a condition that holds is the write of pc (R94). -/
theorem condJump_taken (ha : NamesReg a ra) : condJump true a s = .next (s.setPc (s.getReg ra)) :=
  congrArg (commit s) (onReg_of_toNat ha _)

/-- A conditional jump on a condition that fails advances over its two bytes (R94). -/
theorem condJump_not_taken (ha : NamesReg a ra) : condJump false a s = commit s (advance 1 s s) :=
  congrArg (commit s) (onReg_of_toNat ha _)

/-- The shape that the six conditional jumps share, whatever the condition is (R94). -/
theorem jumpsWhen_of_exec_eq {i : Instr} {c : Bool} (ha : NamesReg a ra) (h : exec i s = condJump c a s) :
    JumpsWhen i c (s.getReg ra) s := by
  constructor
  · rintro rfl
    exact ⟨s.setPc (s.getReg ra), h.trans (condJump_taken ha), rfl, onlyChanges_setPc s _⟩
  · rintro rfl hp
    rw [h, condJump_not_taken ha]
    exact commit_advance (n := 1) hp s

end Named

/-! ### CALL and RET (R91, R92) -/

/-- Settles O34, from what Push writes and from its frame; the return address fits in a byte, so the byte at
the new SP is that address. -/
theorem callPushesTheReturnAddress : Obligations.CallPushesTheReturnAddress := by
  unfold Obligations.CallPushesTheReturnAddress
  intro s a ra ha hp
  have hslot : ((s.push (BitVec.ofNat 8 (s.pc.toNat + 2))).mem.read (s.sp - 1#8).toNat).toNat = s.pc.toNat + 2 := by
    rw [State.push_mem, Memory.read_write_self, BitVec.toNat_ofNat]
    omega
  exact ⟨_, exec_call ha hp, rfl, s.push_sp (BitVec.ofNat 8 (s.pc.toNat + 2)), hslot,
    (onlyChanges_push s _).then_pc (onlyChanges_setPc _ _)⟩

/-- Settles O35: RET is the pop of pc, whose byte is read before SP is raised. -/
theorem retPopsThePc : Obligations.RetPopsThePc := by
  unfold Obligations.RetPopsThePc
  exact fun s => ⟨_, exec_ret s, rfl, s.popRest_sp, (onlyChanges_popRest s).then_pc (onlyChanges_setPc _ _)⟩

/-- Settles O36 from O34 and O35: RET reads the slot that CALL wrote, and SP has gone down and up again. -/
theorem callThenRetReturns : Obligations.CallThenRetReturns := by
  unfold Obligations.CallThenRetReturns
  intro s t u a ra ha hp hcall husp hslot
  obtain ⟨t', hcall', -, htsp, hpushed, -⟩ := callPushesTheReturnAddress s a ra ha hp
  obtain rfl : t = t' := Host.Outcome.next.inj (hcall.symm.trans hcall')
  obtain ⟨v, hret, hvpc, hvsp, -⟩ := retPopsThePc u
  refine ⟨v, hret, ?_, ?_⟩
  · rw [hvpc, husp, hslot, htsp, hpushed]
  · rw [hvsp, husp, htsp, BitVec.sub_add_cancel]

/-! ### Jumps (R93 to R100) -/

/-- Settles O37: JMP is the write of pc alone, which keeps every other field. -/
theorem jmpSetsPc : Obligations.JmpSetsPc := by
  unfold Obligations.JmpSetsPc
  exact fun s a ra ha => ⟨s.setPc (s.getReg ra), exec_jmp ha, rfl, onlyChanges_setPc s _⟩

/-- Settles O38: the six jumps are one jump (R94) under six conditions on the flags. -/
theorem conditionalJumpsFollowTheFlags : Obligations.ConditionalJumpsFollowTheFlags := by
  unfold Obligations.ConditionalJumpsFollowTheFlags
  intro s a ra ha
  exact ⟨jumpsWhen_of_exec_eq ha rfl, jumpsWhen_of_exec_eq ha rfl, jumpsWhen_of_exec_eq ha rfl,
    jumpsWhen_of_exec_eq ha rfl, jumpsWhen_of_exec_eq ha rfl, jumpsWhen_of_exec_eq ha rfl⟩

end Sys2Proof.Machine

/-! ## Interrupt instructions (spec/44_interrupt_instr.md R103, R104) -/

namespace Sys2Proof.Machine

/-! ### INT (R103) -/

section Named

variable {s : State} {a : Byte} {ra : Fin 8}

/-- INT with a line number of at most 7 sets the line's bit of IS and advances over its two bytes (R103). -/
theorem exec_int (ha : NamesReg a ra) (hv : (s.getReg ra).toNat ≤ 7) :
    exec (.int a) s = commit s (advance 1 s (s.setIs (s.is ||| lineMask (s.getReg ra).toNat))) :=
  congrArg (commit s) ((onReg_of_toNat ha _).trans (if_neg (Nat.not_lt.mpr hv)))

/-- INT checks the line number before anything else, so the fatal error does not depend on pc (R103, R130). -/
theorem exec_int_unsupported (ha : NamesReg a ra) (hv : 7 < (s.getReg ra).toNat) :
    exec (.int a) s = commit s (.error .unsupportedOperationError) :=
  congrArg (commit s) ((onReg_of_toNat ha _).trans (if_pos hv))

end Named

/-- Raising a line sets its bit of IS and keeps every other (R103). -/
theorem getLsbD_or_lineMask (is : Byte) {v : Nat} (hv : v ≤ 7) (j : Nat) :
    (is ||| lineMask v).getLsbD j = (is.getLsbD j || decide (j = v)) := by
  rw [BitVec.getLsbD_or, lineMask_getLsbD ⟨v, Nat.lt_succ_of_le hv⟩]

/-- Settles O11: the instruction raises the error, and its commit is the fatal halt. -/
theorem intLineAboveSevenHalts : Obligations.IntLineAboveSevenHalts := by
  unfold Obligations.IntLineAboveSevenHalts
  intro s a ra ha hv
  rw [exec_int_unsupported ha hv]
  exact commit_halts rfl

/-- Settles O39: INT is the write of IS, and the advance keeps everything but pc. -/
theorem intSetsThePendingBit : Obligations.IntSetsThePendingBit := by
  unfold Obligations.IntSetsThePendingBit
  intro s a ra ha hv hp
  obtain ⟨t, ht, hpc, hregs, hmem, ⟨him, his, hic, hirq⟩, hrun, hfl, hout⟩ :=
    commit_advance (n := 1) hp (s.setIs (s.is ||| lineMask (s.getReg ra).toNat))
  have hbits (j : Nat) : t.is.getLsbD j = (s.is.getLsbD j || decide (j = (s.getReg ra).toNat)) := by
    rw [his, State.setIs_is, getLsbD_or_lineMask _ hv]
  exact ⟨t, (exec_int ha hv).trans ht, hpc, hbits, him, hic, hirq, hrun, hfl, hout, hregs, hmem⟩

/-- With no draw left the boundary samples 0, so IS is as it was (R68). -/
theorem sampleIrq_is_of_no_draw {s : State} (h : s.irqIn = []) : (sampleIrq s).is = s.is := by
  simp [irqDraw, h]

/-- Settles O21: by O39 the line that INT raises is the lowest pending and enabled one of the next boundary, so
the next step is its entry, and by O18 the frame holds the pc that INT has left. -/
theorem intIsTakenAtTheNextStep : Obligations.IntIsTakenAtTheNextStep := by
  unfold Obligations.IntIsTakenAtTheNextStep
  intro s t a ra line hrs hic hirq ha hline hp him hlow hint
  obtain ⟨t', hint', hpc, hbits, htim, htic, htirq, ⟨htrs, -⟩, -, -, hregs, -⟩ :=
    intSetsThePendingBit s a ra ha (by omega) hp
  obtain rfl : t = t' := Host.Outcome.next.inj (hint.symm.trans hint')
  have his : (sampleIrq t).is = t.is := sampleIrq_is_of_no_draw (htirq.trans hirq)
  have hpending : ((sampleIrq t).is &&& (sampleIrq t).im).getLsbD line = true := by
    rw [BitVec.getLsbD_and, his, hbits, hline, sampleIrq_im, htim, him]
    simp
  have hlower (j : Fin 8) (hj : j < line) : ((sampleIrq t).is &&& (sampleIrq t).im).getLsbD j = false := by
    have hne : j.val ≠ line.val := Nat.ne_of_lt hj
    rw [BitVec.getLsbD_and, his, hbits, hline, sampleIrq_im, htim, decide_eq_false hne, Bool.or_false,
      ← Bool.not_eq_true, Bool.and_eq_true]
    exact hlow j hj
  have haccept : acceptedLine (sampleIrq t) = some line :=
    acceptedLine_of_lowest (htic.trans hic) hpending hlower
  obtain ⟨u, hu, hframe, -, -, -, hupc, huic, huis, -⟩ := interruptEntryBuildsFrame t line (htrs.trans hrs) haccept
  have hsp : t.sp = s.sp := hregs 7 List.not_mem_nil
  refine ⟨u, hu, huic, hupc, ?_, ?_⟩
  · rw [huis, decide_eq_false (not_not_intro rfl), Bool.and_false]
  · rw [← hsp, hframe, hpc]

/-! ### IRET (R104) -/

theorem add_ofNat_sub_ofNat (p : Byte) (j k : Nat) :
    p + BitVec.ofNat 8 (j + k) - BitVec.ofNat 8 k = p + BitVec.ofNat 8 j := by
  rw [BitVec.ofNat_add, ← BitVec.add_assoc, BitVec.add_sub_cancel]

/-- Settles O40: IRET is the return from an interrupt, which pops the nine bytes of the frame and keeps memory,
IM, IS, the run state, the output and the coming draws. -/
theorem iretPopsTheFrame : Obligations.IretPopsTheFrame := by
  unfold Obligations.IretPopsTheFrame
  intro s
  obtain ⟨hregs, hsp, hfl, hpc⟩ := interruptReturn_popped s
  obtain ⟨hmem, him, his, hic, hrs, hhr, hout, hirq⟩ := interruptReturn_others s
  refine ⟨interruptReturn s, exec_iret s, fun r hr => ?_, congrArg Flags.e hfl, congrArg Flags.g hfl,
    congrArg Flags.l hfl, hpc, hsp, hic, him, his, hirq, ⟨hrs, hhr⟩, hout, fun a _ => by rw [hmem]⟩
  have hslot : s.sp + 6#8 - BitVec.ofNat 8 r.val = s.sp + BitVec.ofNat 8 (6 - r.val) := by
    rw [← add_ofNat_sub_ofNat s.sp (6 - r.val) r.val, Nat.sub_add_cancel (by omega)]
  rw [hregs r hr, hslot, State.load]

/-! ### The round trip of an entry and an IRET (R139) -/

theorem sub_ofNat_add_ofNat (p : Byte) (j k : Nat) :
    p - BitVec.ofNat 8 (j + k) + BitVec.ofNat 8 k = p - BitVec.ofNat 8 j := by
  rw [BitVec.ofNat_add, ← BitVec.sub_sub, BitVec.sub_add_cancel]

/-- The byte pushed at place `j` of the frame, counted up from the SP that the entry leaves (R137). -/
theorem load_frame (i : Fin 8) (s : State) (j : Nat) (hj : j < 9) :
    (interruptEntry i s).load ((interruptEntry i s).sp + BitVec.ofNat 8 (8 - j)) = (frameBytes s)[j] := by
  have hplace : j + 1 + (8 - j) = 9 := by omega
  have hslot : (interruptEntry i s).sp + BitVec.ofNat 8 (8 - j) = s.sp - BitVec.ofNat 8 (j + 1) := by
    rw [← sub_ofNat_add_ofNat s.sp (j + 1) (8 - j), hplace, interruptEntry_sp]
  rw [hslot, State.load, read_interruptEntry_slot i s j hj]

/-- FL comes back from its own byte, a part of O59 (R24). -/
theorem flOfByte_flByte (f : Flags) : flOfByte (flByte f) = f := by
  obtain ⟨himage, -⟩ := flagByteImage
  obtain ⟨-, -, -, -, hback⟩ := himage f
  exact hback

/-- A return from a state that has kept SP and the frame of an entry restores pc, FL and every register (R139). -/
theorem interruptReturn_restores {i : Fin 8} {s u : State} (hsp : u.sp = (interruptEntry i s).sp)
    (hframe : ∀ k : Nat, k < 9 → u.load ((interruptEntry i s).sp + BitVec.ofNat 8 k) =
      (interruptEntry i s).load ((interruptEntry i s).sp + BitVec.ofNat 8 k)) :
    (interruptReturn u).pc = s.pc ∧ (interruptReturn u).fl = s.fl ∧
      ∀ r : Fin 8, (interruptReturn u).getReg r = s.getReg r := by
  have hbyte (j : Nat) (hj : j < 9) : u.load (u.sp + BitVec.ofNat 8 (8 - j)) = (frameBytes s)[j] := by
    rw [hsp, hframe (8 - j) (by omega), load_frame i s j hj]
  obtain ⟨hregs, hrsp, hfl, hpc⟩ := interruptReturn_popped u
  refine ⟨hpc.trans (hbyte 0 (by decide)), ?_, fun r => ?_⟩
  · have hflByte : u.load (u.sp + 7#8) = flByte s.fl := hbyte 1 (by decide)
    rw [hfl, hflByte, flOfByte_flByte]
  by_cases h7 : r = 7
  · have hback : (interruptReturn u).sp = s.sp := by
      rw [hrsp, hsp, interruptEntry_sp, BitVec.sub_add_cancel]
    rw [h7]
    exact hback
  · have hj : r.val + 2 < 9 := by omega
    have hslot : 8 - (r.val + 2) = 6 - r.val := Nat.add_sub_add_right 6 2 r.val
    rw [hregs r h7, ← hslot, hbyte (r.val + 2) hj]
    exact (List.getElem_eq_iff hj).mpr (frameBytes_reg s h7)

/-- Settles O20: the step is the entry from the sampled state, and sampling changes none of pc, FL and the
registers. -/
theorem interruptRoundTripRestores : Obligations.InterruptRoundTripRestores := by
  unfold Obligations.InterruptRoundTripRestores
  intro s t u i hrs haccept hstep hsp hframe
  obtain rfl : interruptEntry i (sampleIrq s) = t :=
    Host.Outcome.next.inj ((step_entry hrs haccept).symm.trans hstep)
  obtain ⟨hpc, hfl, hregs⟩ := interruptReturn_restores hsp hframe
  obtain ⟨-, -, -, hic, -⟩ := interruptReturn_others u
  exact ⟨interruptReturn u, exec_iret u, hpc, hfl, hregs, hic⟩

end Sys2Proof.Machine

/-! ## ALU instructions (spec/45_alu.md R105 to R120) -/

namespace Sys2Proof.Machine

/-! ### Narrowing to a byte (R9)

`u8` carries the operations on unbounded integers to those modulo 256. -/

theorem u8_toNat (a : Byte) : u8 a.toNat = a := by
  rw [u8, BitVec.ofInt_natCast, BitVec.ofNat_toNat, BitVec.setWidth_eq]

theorem u8_add (m n : Int) : u8 (m + n) = u8 m + u8 n := BitVec.ofInt_add m n

theorem u8_mul (m n : Int) : u8 (m * n) = u8 m * u8 n := BitVec.ofInt_mul m n

theorem u8_sub (m n : Int) : u8 (m - n) = u8 m - u8 n := by
  simp only [u8, Int.sub_eq_add_neg, BitVec.ofInt_add, BitVec.ofInt_neg, BitVec.sub_eq_add_neg]

/-! ### The results (R106 to R112, R117 to R119) -/

theorem aluAdd_eq (a b : Byte) : aluAdd a b = a + b := by rw [aluAdd, u8_add, u8_toNat, u8_toNat]

theorem aluSub_eq (a b : Byte) : aluSub a b = a - b := by rw [aluSub, u8_sub, u8_toNat, u8_toNat]

theorem aluMul_eq (a b : Byte) : aluMul a b = a * b := by rw [aluMul, u8_mul, u8_toNat, u8_toNat]

theorem aluInc_eq (a : Byte) : aluInc a = a + 1#8 := by
  rw [aluInc, u8_add, u8_toNat]
  rfl

theorem aluDec_eq (a : Byte) : aluDec a = a - 1#8 := by
  rw [aluDec, u8_sub, u8_toNat]
  rfl

/-- The complement of a byte is its distance from 255 (R9). -/
theorem aluNot_eq (a : Byte) : aluNot a = 255#8 - a := (BitVec.allOnes_sub_eq_not a).symm

/-- A result that is at most a byte needs no reduction. -/
theorem toNat_ofNat_of_le {n : Nat} (a : Byte) (h : n ≤ a.toNat) : (BitVec.ofNat 8 n).toNat = n :=
  Nat.mod_eq_of_lt (h.trans_lt a.isLt)

theorem aluDiv_toNat (a b : Byte) : (aluDiv a b).toNat = a.toNat / b.toNat :=
  toNat_ofNat_of_le a (Nat.div_le_self _ _)

theorem aluMod_toNat (a b : Byte) : (aluMod a b).toNat = a.toNat % b.toNat :=
  toNat_ofNat_of_le a (Nat.mod_le _ _)

theorem aluShl_toNat (a b : Byte) : (aluShl a b).toNat = a.toNat * 2 ^ b.toNat % 256 := by
  rw [aluShl, BitVec.toNat_ofNat, Nat.shiftLeft_eq]

theorem aluShr_toNat (a b : Byte) : (aluShr a b).toNat = a.toNat / 2 ^ b.toNat := by
  rw [aluShr, Nat.shiftRight_eq_div_pow]
  exact toNat_ofNat_of_le a (Nat.div_le_self _ _)

/-- An amount of 8 or more makes the product a multiple of 256. -/
theorem aluShl_eq_zero {b : Byte} (h : 8 ≤ b.toNat) (a : Byte) : aluShl a b = 0#8 := by
  have hdvd : 256 ∣ a.toNat * 2 ^ b.toNat := (pow_dvd_pow 2 h).mul_left _
  exact BitVec.eq_of_toNat_eq ((aluShl_toNat a b).trans (Nat.mod_eq_zero_of_dvd hdvd))

/-- An amount of 8 or more makes the divisor exceed every byte. -/
theorem aluShr_eq_zero {b : Byte} (h : 8 ≤ b.toNat) (a : Byte) : aluShr a b = 0#8 := by
  have hlt : a.toNat < 2 ^ b.toNat := a.isLt.trans_le (Nat.pow_le_pow_right Nat.two_pos h)
  exact BitVec.eq_of_toNat_eq ((aluShr_toNat a b).trans (Nat.div_eq_of_lt hlt))

/-! ### The three forms on the registers that their operands name (R60, R105)

Each form is a register write, whatever its operation is; the operands are read before the write, so A may be B. -/

section Named

variable {i : Instr} {s : State} {a b : Byte} {ra rb : Fin 8}

theorem writesReg_of_aluBinary (ha : NamesReg a ra) (hb : NamesReg b rb) (hp : s.pc.toNat + 3 ≤ 0xFF)
    {op : Byte → Byte → Byte} (h : exec i s = commit s (aluBinary op a b s)) :
    WritesReg i ra (op (s.getReg ra) (s.getReg rb)) 3 s :=
  writesReg_of_exec_eq (h.trans (congrArg (commit s) (onRegs_of_toNat ha hb _))) hp

/-- DIV and MOD past their own condition, a divisor that is not 0 (R109, R110). -/
theorem writesReg_of_aluDivide (ha : NamesReg a ra) (hb : NamesReg b rb) (hd : s.getReg rb ≠ 0#8)
    (hp : s.pc.toNat + 3 ≤ 0xFF) {op : Byte → Byte → Byte} (h : exec i s = commit s (aluDivide op a b s)) :
    WritesReg i ra (op (s.getReg ra) (s.getReg rb)) 3 s :=
  writesReg_of_exec_eq (h.trans (congrArg (commit s) ((onRegs_of_toNat ha hb _).trans (if_neg hd)))) hp

theorem writesReg_of_aluUnary (ha : NamesReg a ra) (hp : s.pc.toNat + 2 ≤ 0xFF) {op : Byte → Byte}
    (h : exec i s = commit s (aluUnary op a s)) : WritesReg i ra (op (s.getReg ra)) 2 s :=
  writesReg_of_exec_eq (h.trans (congrArg (commit s) (onReg_of_toNat ha _))) hp

end Named

/-! ### The instructions -/

/-- Settles O41: the three are one register write, with results that are sum, difference and product modulo 256. -/
theorem addSubMulWrap : Obligations.AddSubMulWrap := by
  unfold Obligations.AddSubMulWrap
  intro s a b ra rb ha hb hp
  rw [← aluAdd_eq, ← aluSub_eq, ← aluMul_eq]
  exact ⟨writesReg_of_aluBinary ha hb hp rfl, writesReg_of_aluBinary ha hb hp rfl,
    writesReg_of_aluBinary ha hb hp rfl⟩

/-- Settles O42 with the results that the ALU computes, which need no reduction. -/
theorem divModAreUnsigned : Obligations.DivModAreUnsigned := by
  unfold Obligations.DivModAreUnsigned
  intro s a b ra rb ha hb hd hp
  exact ⟨_, _, aluDiv_toNat _ _, aluMod_toNat _ _, writesReg_of_aluDivide ha hb hd hp rfl,
    writesReg_of_aluDivide ha hb hd hp rfl⟩

/-- Settles O43: the three are one register write, of the unary form. -/
theorem incDecNotResults : Obligations.IncDecNotResults := by
  unfold Obligations.IncDecNotResults
  intro s a ra ha hp
  rw [← aluInc_eq, ← aluDec_eq, ← aluNot_eq]
  exact ⟨writesReg_of_aluUnary ha hp rfl, writesReg_of_aluUnary ha hp rfl, writesReg_of_aluUnary ha hp rfl⟩

/-- Settles O44 with the ALU's results, which are bitwise by their definitions. -/
theorem andOrXorAreBitwise : Obligations.AndOrXorAreBitwise := by
  unfold Obligations.AndOrXorAreBitwise
  intro s a b ra rb ha hb hp
  exact ⟨_, _, _, fun _ => ⟨BitVec.getLsbD_and, BitVec.getLsbD_or, BitVec.getLsbD_xor⟩,
    writesReg_of_aluBinary ha hb hp rfl, writesReg_of_aluBinary ha hb hp rfl,
    writesReg_of_aluBinary ha hb hp rfl⟩

/-- Settles O45: a shift is a product or a quotient by a power of 2, which is 0 as a byte from the amount 8 on. -/
theorem shiftsUseTheWholeAmount : Obligations.ShiftsUseTheWholeAmount := by
  unfold Obligations.ShiftsUseTheWholeAmount
  intro s a b ra rb ha hb hp
  exact ⟨_, _, aluShl_toNat _ _, aluShr_toNat _ _, fun h => ⟨aluShl_eq_zero h _, aluShr_eq_zero h _⟩,
    writesReg_of_aluBinary ha hb hp rfl, writesReg_of_aluBinary ha hb hp rfl⟩

/-- Settles O47 by O41 twice: the ADD keeps register B, which is not A, so the SUB takes away what was added. -/
theorem addThenSubReturns : Obligations.AddThenSubReturns := by
  unfold Obligations.AddThenSubReturns
  intro s a b ra rb ha hb hne hp
  obtain ⟨⟨t, ht, hsum, htpc, htregs, -⟩, -⟩ := addSubMulWrap s a b ra rb ha hb (by omega)
  obtain ⟨-, ⟨u, hu, hdiff, -, huregs, -⟩, -⟩ := addSubMulWrap t a b ra rb ha hb (by omega)
  refine ⟨t, u, ht, hu, fun r => ?_⟩
  by_cases hr : r = ra
  · have hkept : t.getReg rb = s.getReg rb := htregs rb (mt List.mem_singleton.mp hne.symm)
    rw [hr, hdiff, hsum, hkept, BitVec.add_sub_cancel]
  · have hnot : r ∉ [ra] := mt List.mem_singleton.mp hr
    exact (huregs r hnot).trans (htregs r hnot)

end Sys2Proof.Machine

/-! ## Division by zero, and the acceptance of an interrupt (spec/60_exceptions.md R125, R132 to R138) -/

namespace Sys2Proof.Machine

/-! ### The zero divisor (R125) -/

/-- DIV and MOD check the divisor before the address after the instruction (R109, R110, R130). -/
theorem aluDivide_zero {s : State} {a b : Byte} {ra rb : Fin 8} (ha : NamesReg a ra) (hb : NamesReg b rb)
    (hd : s.getReg rb = 0#8) (op : Byte → Byte → Byte) :
    aluDivide op a b s = .error .divideByZeroError :=
  (onRegs_of_toNat ha hb _).trans (if_pos hd)

/-- Settles O10: both instructions commit the error that the division form raises. -/
theorem zeroDivisorHalts : Obligations.ZeroDivisorHalts := by
  unfold Obligations.ZeroDivisorHalts
  intro s a b ra rb ha hb hd
  exact ⟨commit_halts (aluDivide_zero ha hb hd aluDiv), commit_halts (aluDivide_zero ha hb hd aluMod)⟩

/-! ### Every step answers a next state (R67, R129) -/

/-- A commit answers a next state, a fatal error too (R129). -/
theorem commit_answers_next (s : State) (tx : Tx) : ∃ t, commit s tx = .next t := by
  cases tx with
  | ok t => exact ⟨t, rfl⟩
  | error k => exact ⟨fatalHalt k s, rfl⟩

/-- Every instruction commits a transaction, so none is refused. -/
theorem exec_answers_next (i : Instr) (s : State) : ∃ t, exec i s = .next t := by
  obtain ⟨tx, htx, -⟩ := exec_commit i s
  rw [htx]
  exact commit_answers_next s tx

/-- Settles O14, by the kinds of step: all but the instruction name their next state. -/
theorem everyStepAnswersNext : Obligations.EveryStepAnswersNext := by
  unfold Obligations.EveryStepAnswersNext
  intro s
  rcases step_cases s with ⟨-, h⟩ | ⟨-, i, -, h⟩ | ⟨-, k, -, h⟩ | ⟨-, i, -, h⟩
  · exact ⟨_, h⟩
  · exact ⟨_, h⟩
  · exact ⟨_, h⟩
  · rw [h]
    exact exec_answers_next i _

/-! ### The acceptance test (R134, R138) -/

/-- A line is accepted exactly when IC is Normal and some line is pending and enabled (R134). -/
theorem exists_acceptedLine_iff (s : State) :
    (∃ i, acceptedLine s = some i) ↔ s.ic = .normal ∧ s.is &&& s.im ≠ 0#8 := by
  constructor
  · rintro ⟨i, ha⟩
    obtain ⟨hic, hbit, -⟩ := acceptedLine_some ha
    refine ⟨hic, fun hzero => ?_⟩
    rw [hzero, BitVec.getLsbD_zero] at hbit
    cases hbit
  · rintro ⟨hic, hne⟩
    refine Option.ne_none_iff_exists'.mp fun hnone => ?_
    rcases acceptedLine_none.mp hnone with hhandling | hbits
    · rw [hic] at hhandling
      cases hhandling
    · exact hne (BitVec.eq_of_getLsbD_eq fun j hj => (hbits ⟨j, hj⟩).trans BitVec.getLsbD_zero.symm)

/-- Settles O16: the step of a Running machine is the entry for the accepted line, where there is one. -/
theorem acceptedExactlyWhenNormalAndPending : Obligations.AcceptedExactlyWhenNormalAndPending := by
  unfold Obligations.AcceptedExactlyWhenNormalAndPending
  refine ⟨fun s hrs => ?_, fun s => step_halted⟩
  have hstep (i : Fin 8) : (step s = .next (interruptEntry i (sampleIrq s)) ∧
      acceptedLine (sampleIrq s) = some i) ↔ acceptedLine (sampleIrq s) = some i :=
    and_iff_right_of_imp (step_entry hrs)
  exact (exists_congr hstep).trans (exists_acceptedLine_iff (sampleIrq s))

/-- A Running machine that is Handling executes an instruction at the boundary (R138). -/
theorem atInstruction_of_handling {s : State} (hrs : s.rs = .running) (hic : s.ic = .handling) :
    AtInstruction s :=
  ⟨hrs, acceptedLine_none.mpr (.inl hic)⟩

/-- A step that is an instruction clears no pending bit: a failed fetch keeps IS, and every instruction keeps
what is pending (R28, R129). -/
theorem step_keeps_pending {s t : State} (hat : AtInstruction s) (h : step s = .next t) (j : Nat)
    (hj : (sampleIrq s).is.getLsbD j = true) : t.is.getLsbD j = true := by
  obtain ⟨hrs, hnone⟩ := hat
  rcases step_next_cases h with ⟨hhalted, -⟩ | ⟨-, i, hsome, -⟩ | ⟨-, k, -, rfl⟩ | ⟨-, i, -, hex⟩
  · rw [hrs] at hhalted
    cases hhalted
  · rw [hnone] at hsome
    cases hsome
  · exact hj
  · exact (exec_frame hex).pending j hj

/-- Settles O19: the step is an instruction, which clears no pending bit. -/
theorem handlingHoldsEveryLine : Obligations.HandlingHoldsEveryLine := by
  unfold Obligations.HandlingHoldsEveryLine
  intro s t hrs hic h
  have hat := atInstruction_of_handling hrs hic
  exact ⟨hat, step_instr hat, fun j => step_keeps_pending hat h j⟩

/-! ### The lowest line (R132, R135) -/

/-- With IC Normal the lowest line that is pending and enabled is accepted, its bits of IS and IM read apart
(R135). -/
theorem acceptedLine_of_lowest_pending {s : State} {i : Fin 8} (hic : s.ic = .normal)
    (his : s.is.getLsbD i = true) (him : s.im.getLsbD i = true)
    (hlow : ∀ j : Fin 8, j < i → ¬ (s.is.getLsbD j = true ∧ s.im.getLsbD j = true)) :
    acceptedLine s = some i := by
  refine acceptedLine_of_lowest hic ?_ fun j hj => ?_
  · rw [BitVec.getLsbD_and, his, him, Bool.and_self]
  · rw [BitVec.getLsbD_and, ← Bool.not_eq_true, Bool.and_eq_true]
    exact hlow j hj

/-- Settles O17: the step is the entry for the accepted line, which clears that line's bit of IS alone. -/
theorem lowestLineIsTaken : Obligations.LowestLineIsTaken := by
  unfold Obligations.LowestLineIsTaken
  intro s i hrs hic his him hlow
  have haccept : acceptedLine (sampleIrq s) = some i := acceptedLine_of_lowest_pending hic his him hlow
  refine ⟨_, step_entry hrs haccept, rfl, interruptEntry_is_line i _, fun j hj => ?_⟩
  rw [interruptEntry_is, decide_eq_true hj, Bool.and_true]

/-- Settles O22 by O17: once `v` is in IM the line is the lowest one pending and enabled, and with no draw left
the boundary adds no request. -/
theorem unmaskedPendingLineIsTaken : Obligations.UnmaskedPendingLineIsTaken := by
  unfold Obligations.UnmaskedPendingLineIsTaken
  intro s v i hrs hic hirq his _ hv hlow
  have hsampled : (sampleIrq (hostWriteIm v s)).is = s.is :=
    sampleIrq_is_of_no_draw (s := hostWriteIm v s) hirq
  obtain ⟨t, hstep, rfl, hcleared, -⟩ := lowestLineIsTaken (hostWriteIm v s) i hrs hic
    (hsampled.symm ▸ his) hv (hsampled.symm ▸ hlow)
  exact ⟨rfl, rfl, _, hstep, interruptEntry_ic i _, hcleared, interruptEntry_pc i _⟩

end Sys2Proof.Machine
